-- ==== Sys2Proof/Word.lean ====
section
/-! DEFINITION. The word types of the core (spec/00_scope.md section 3, R1). A field of one of these types keeps
its width by construction, so every write is reduced to the width and no truncation signals (R1). -/

namespace Sys2Proof

/-- A 4-bit value: a register, the accumulator, a data-store entry (R10, R12, R33). -/
abbrev Nibble := BitVec 4

/-- An 8-bit value: a program-store byte, a register pair, the data pointer (R11, R15, R30). -/
abbrev Byte := BitVec 8

/-- A 12-bit program-store address (R14). -/
abbrev Addr := BitVec 12

/-- The carry's one bit (R13). -/
abbrev Bit := BitVec 1

end Sys2Proof
end

