-- ==== Sys2Proof/Config.lean ====
section
/-! DEFINITION. The implementation parameters of spec/00_scope.md section 3. The spec leaves none of them open and
leaves no value of the machine undefined, so this file holds no free value. -/

namespace Sys2Proof

/-- `NREG`, the number of general registers (R10). -/
abbrev Config.numRegs : Nat := 16

/-- `STACK_DEPTH`, the call stack's capacity (R16). -/
abbrev Config.stackDepth : Nat := 3

/-- Bytes of the program store (R30). -/
abbrev Config.progSize : Nat := 4096

/-- Entries of the data store (R33). -/
abbrev Config.dataSize : Nat := 256

end Sys2Proof
end

