-- ==== Sys2Proof/Syntax.lean ====
section
/-! DEFINITION. Instruction terms: one constructor of `Instr` per row of spec/opcode_table.json (32 rows; `JCN` has
one row per condition), and the types the decoder answers with (R51, R54).

Register numbers, pair indexes and 12-bit addresses are natural numbers, because the spec speaks of instruction terms
built outside the decoder whose operand is out of range or odd (R130, `PreconditionViolation`). Immediates and in-page
offsets are bit vectors of their encoded width: no value of them is malformed (R59, R60, R64). DESIGN CHOICE, log entry 3. -/

namespace Sys2Proof

/-- The instructions, in the order of spec/opcode_table.json. -/
inductive Instr where
  /-- `LDM imm` (R80). -/
  | ldm (imm : Nibble)
  /-- `LD r` (R81). -/
  | ld (r : Nat)
  /-- `XCH r` (R82). -/
  | xch (r : Nat)
  /-- `FIM rp, imm8` (R83). -/
  | fim (rp : Nat) (imm8 : Byte)
  /-- `FIN rp` (R84). -/
  | fin (rp : Nat)
  /-- `ADD r` (R92). -/
  | add (r : Nat)
  /-- `SUB r` (R93). -/
  | sub (r : Nat)
  /-- `INC r` (R94). -/
  | inc (r : Nat)
  /-- `IAC` (R95). -/
  | iac
  /-- `DAC` (R96). -/
  | dac
  /-- `CLC` (R100). -/
  | clc
  /-- `STC` (R101). -/
  | stc
  /-- `CMC` (R102). -/
  | cmc
  /-- `CLB` (R103). -/
  | clb
  /-- `CMA` (R104). -/
  | cma
  /-- `RAL` (R105). -/
  | ral
  /-- `RAR` (R106). -/
  | rar
  /-- `TCC` (R107). -/
  | tcc
  /-- `JUN addr12` (R111). -/
  | jun (addr12 : Nat)
  /-- `JMS addr12` (R112). -/
  | jms (addr12 : Nat)
  /-- `BBL imm` (R113). -/
  | bbl (imm : Nibble)
  /-- `JIN rp` (R114). -/
  | jin (rp : Nat)
  /-- `ISZ r, addr` (R115); the operand is the in-page offset (R62). -/
  | isz (r : Nat) (addr8 : Byte)
  /-- `JCN C1, addr`: condition 0x2, jump if `CY = 1` (R63, R116). -/
  | jcnC1 (addr8 : Byte)
  /-- `JCN AZ, addr`: condition 0x4, jump if `A = 0`. -/
  | jcnAZ (addr8 : Byte)
  /-- `JCN C0, addr`: condition 0xA, jump if `CY = 0`. -/
  | jcnC0 (addr8 : Byte)
  /-- `JCN AN, addr`: condition 0xC, jump if `A != 0`. -/
  | jcnAN (addr8 : Byte)
  /-- `SRC rp` (R120). -/
  | src (rp : Nat)
  /-- `WRM` (R121). -/
  | wrm
  /-- `RDM` (R122). -/
  | rdm
  /-- `ADM` (R123). -/
  | adm
  /-- `SBM` (R124). -/
  | sbm
  deriving DecidableEq, Repr

/-- A two-byte instruction whose operand byte has not been supplied yet: "the operand byte is supplied after fetch"
(R54). `jun` and `jms` hold the address's high nibble, Listing E-2's `ahi`. -/
inductive TwoByte where
  | fim (rp : Nat)
  | jun (ahi : Nibble)
  | jms (ahi : Nibble)
  | isz (r : Nat)
  | jcnC1
  | jcnAZ
  | jcnC0
  | jcnAN
  deriving DecidableEq, Repr

/-- What an opcode byte decodes to (R54): exactly one of illegal, a complete one-byte instruction, a two-byte
instruction waiting for its operand byte. -/
inductive Decoded where
  | illegal
  | oneByte (i : Instr)
  | twoByte (h : TwoByte)
  deriving DecidableEq, Repr

/-- Why the decoder of a byte sequence answers no instruction. -/
inductive Reject where
  /-- The sequence is empty. -/
  | noOpcodeByte
  /-- The first byte is one of the 46 illegal bytes (R53). -/
  | illegalOpcode (o : Byte)
  /-- The first byte is a two-byte instruction's and no byte follows. -/
  | noOperandByte (o : Byte)
  deriving DecidableEq, Repr

/-- The eight formats of Table E-1 (R51). -/
inductive Format where
  | R | I | P | N | PI | L | C | RA
  deriving DecidableEq, Repr

end Sys2Proof
end

