-- ==== Sys2Proof/WellFormed.lean ====
section
/-! DEFINITION. Which instruction terms are well formed: the operand conditions whose violation Table G-1 (R130) calls
`PreconditionViolation`. -/

namespace Sys2Proof

/-- A register number is in 0..15 (R10, R58). -/
abbrev regOk (r : Nat) : Bool := decide (r < Config.numRegs)

/-- A pair index is even and in 0..14 (R11, R58). -/
abbrev pairOk (p : Nat) : Bool := decide (p < Config.numRegs) && decide (p % 2 = 0)

/-- A program-store address is in 0x000..0xFFF (R30, R61). -/
abbrev progAddrOk (a : Nat) : Bool := decide (a < Config.progSize)

/-- Every operand of the term satisfies the condition of its kind. -/
def Instr.wellFormed : Instr → Bool
  | .ldm _ => true
  | .ld r => regOk r
  | .xch r => regOk r
  | .fim rp _ => pairOk rp
  | .fin rp => pairOk rp
  | .add r => regOk r
  | .sub r => regOk r
  | .inc r => regOk r
  | .iac => true
  | .dac => true
  | .clc => true
  | .stc => true
  | .cmc => true
  | .clb => true
  | .cma => true
  | .ral => true
  | .rar => true
  | .tcc => true
  | .jun a => progAddrOk a
  | .jms a => progAddrOk a
  | .bbl _ => true
  | .jin rp => pairOk rp
  | .isz r _ => regOk r
  | .jcnC1 _ => true
  | .jcnAZ _ => true
  | .jcnC0 _ => true
  | .jcnAN _ => true
  | .src rp => pairOk rp
  | .wrm => true
  | .rdm => true
  | .adm => true
  | .sbm => true

end Sys2Proof
end

