-- ==== Sys2Proof/Decode.lean ====
section
/-! DEFINITION. The decoder (Listing E-2, R55), total on any bytes and rejecting by name, the facts it gives beside the
term (format, length, cost), and after it the encoder written from the same table. The opcode bytes outside the rows
0x2_ and 0x3_ and the bytes 0xD5, 0x60, 0xC0 are the spec's general knowledge: PRESUMED, unsafe, log entry 5. -/

namespace Sys2Proof

/-- `v[7:4]` of a byte (R55, R60). -/
def hiNibble (b : Byte) : Nibble := b.extractLsb' 4 4

/-- `v[3:0]` of a byte. -/
def loNibble (b : Byte) : Nibble := b.extractLsb' 0 4

/-- The register operand `O[3:0]` (R58). -/
def regField (l : Nibble) : Nat := l.toNat

/-- The pair operand `O[3:0] & 0xE` (R58). -/
def pairField (l : Nibble) : Nat := (l &&& 0xE#4).toNat

/-- The condition nibble of row 0x1 (R63): four admitted values, every other illegal (R53). -/
def decodeCond (l : Nibble) : Decoded :=
  match l.toNat with
  | 0x2 => .twoByte .jcnC1
  | 0x4 => .twoByte .jcnAZ
  | 0xA => .twoByte .jcnC0
  | 0xC => .twoByte .jcnAN
  | _ => .illegal

/-- Row 0xE (R56). -/
def decodeRowE (l : Nibble) : Decoded :=
  match l.toNat with
  | 0x0 => .oneByte .wrm
  | 0x8 => .oneByte .sbm
  | 0x9 => .oneByte .rdm
  | 0xB => .oneByte .adm
  | _ => .illegal

/-- Row 0xF (R57). -/
def decodeRowF (l : Nibble) : Decoded :=
  match l.toNat with
  | 0x0 => .oneByte .clb
  | 0x1 => .oneByte .clc
  | 0x2 => .oneByte .iac
  | 0x3 => .oneByte .cmc
  | 0x4 => .oneByte .cma
  | 0x5 => .oneByte .ral
  | 0x6 => .oneByte .rar
  | 0x7 => .oneByte .tcc
  | 0x8 => .oneByte .dac
  | 0xA => .oneByte .stc
  | _ => .illegal

/-- `decode(O)` by its two nibbles `h` and `l` (Listing E-2). -/
def decodeNibbles (h l : Nibble) : Decoded :=
  match h.toNat with
  | 0x1 => decodeCond l
  | 0x2 => if l.getLsbD 0 then .oneByte (.src (pairField l)) else .twoByte (.fim (pairField l))
  | 0x3 => if l.getLsbD 0 then .oneByte (.jin (pairField l)) else .oneByte (.fin (pairField l))
  | 0x4 => .twoByte (.jun l)
  | 0x5 => .twoByte (.jms l)
  | 0x6 => .oneByte (.inc (regField l))
  | 0x7 => .twoByte (.isz (regField l))
  | 0x8 => .oneByte (.add (regField l))
  | 0x9 => .oneByte (.sub (regField l))
  | 0xA => .oneByte (.ld (regField l))
  | 0xB => .oneByte (.xch (regField l))
  | 0xC => .oneByte (.bbl l)
  | 0xD => .oneByte (.ldm l)
  | 0xE => decodeRowE l
  | 0xF => decodeRowF l
  | _ => .illegal

/-- `decode(O)` (R54, R55): what an opcode byte is. -/
def decodeOpcode (o : Byte) : Decoded := decodeNibbles (hiNibble o) (loNibble o)

/-- A two-byte instruction with its operand byte supplied (R60, R61, R62). -/
def TwoByte.complete (h : TwoByte) (b : Byte) : Instr :=
  match h with
  | .fim rp => .fim rp b
  | .jun ahi => .jun (ahi ++ b).toNat
  | .jms ahi => .jms (ahi ++ b).toNat
  | .isz r => .isz r b
  | .jcnC1 => .jcnC1 b
  | .jcnAZ => .jcnAZ b
  | .jcnC0 => .jcnC0 b
  | .jcnAN => .jcnAN b

/-- The instruction at the head of a byte sequence and the bytes after it, or why there is none. -/
def decodeBytes : List Byte → Except Reject (Instr × List Byte)
  | [] => .error .noOpcodeByte
  | o :: rest =>
    match decodeOpcode o with
    | .illegal => .error (.illegalOpcode o)
    | .oneByte i => .ok (i, rest)
    | .twoByte h =>
      match rest with
      | [] => .error (.noOperandByte o)
      | b :: rest' => .ok (h.complete b, rest')

/-- The length the opcode byte fixes before any operand byte is read (R50, R65); none for an illegal byte. -/
def opcodeLength (o : Byte) : Option Nat :=
  match decodeOpcode o with
  | .illegal => none
  | .oneByte _ => some 1
  | .twoByte _ => some 2

/-- Whether an opcode byte asks for an operand byte (R65). -/
def needsOperandByte (o : Byte) : Bool :=
  match decodeOpcode o with
  | .illegal => false
  | .oneByte _ => false
  | .twoByte _ => true

/-- The format of an instruction (Table E-1, last column). -/
def Instr.format : Instr → Format
  | .ldm _ => .I
  | .ld _ => .R
  | .xch _ => .R
  | .fim _ _ => .PI
  | .fin _ => .P
  | .add _ => .R
  | .sub _ => .R
  | .inc _ => .R
  | .iac => .N
  | .dac => .N
  | .clc => .N
  | .stc => .N
  | .cmc => .N
  | .clb => .N
  | .cma => .N
  | .ral => .N
  | .rar => .N
  | .tcc => .N
  | .jun _ => .L
  | .jms _ => .L
  | .bbl _ => .I
  | .jin _ => .P
  | .isz _ _ => .RA
  | .jcnC1 _ => .C
  | .jcnAZ _ => .C
  | .jcnC0 _ => .C
  | .jcnAN _ => .C
  | .src _ => .P
  | .wrm => .N
  | .rdm => .N
  | .adm => .N
  | .sbm => .N

/-- The length of a format (Table E-1, column "length"). -/
def Format.length : Format → Nat
  | .R => 1
  | .I => 1
  | .P => 1
  | .N => 1
  | .PI => 2
  | .L => 2
  | .C => 2
  | .RA => 2

/-- The length of an instruction in bytes (R50). -/
def Instr.length (i : Instr) : Nat := i.format.length

/-- The cycle cost of an instruction of a length: 8 for one byte, 16 for two (R71, Table J-1). -/
def cycleCost (len : Nat) : Nat := if len = 2 then 16 else 8

/-- The cycle cost of an instruction (R71). -/
def Instr.cost (i : Instr) : Nat := cycleCost i.length

/-- The low nibble that carries a register number (format R and RA, R58). -/
def regBits (r : Nat) : Nibble := BitVec.ofNat 4 r

/-- The low nibble of a pair instruction: the pair number in bits 3..1 and the selector `s` in bit 0 (format P). -/
def pairBits (p : Nat) (s : Bit) : Nibble := BitVec.ofNat 3 (p / 2) ++ s

/-- The high nibble of a 12-bit address (format L). -/
def addrHi (a : Nat) : Nibble := BitVec.ofNat 4 (a / 256)

/-- The low byte of a 12-bit address (format L). -/
def addrLo (a : Nat) : Byte := BitVec.ofNat 8 a

/-- The bytes of an instruction, opcode byte first, written from the encoding line of its rule and Table E-1. On an
ill-formed term it answers bytes of no meaning. -/
def encode : Instr → List Byte
  | .ldm d => [0b1101#4 ++ d]
  | .ld r => [0b1010#4 ++ regBits r]
  | .xch r => [0b1011#4 ++ regBits r]
  | .fim p d => [0b0010#4 ++ pairBits p 0#1, d]
  | .fin p => [0b0011#4 ++ pairBits p 0#1]
  | .add r => [0b1000#4 ++ regBits r]
  | .sub r => [0b1001#4 ++ regBits r]
  | .inc r => [0b0110#4 ++ regBits r]
  | .iac => [0b11110010#8]
  | .dac => [0b11111000#8]
  | .clc => [0b11110001#8]
  | .stc => [0b11111010#8]
  | .cmc => [0b11110011#8]
  | .clb => [0b11110000#8]
  | .cma => [0b11110100#8]
  | .ral => [0b11110101#8]
  | .rar => [0b11110110#8]
  | .tcc => [0b11110111#8]
  | .jun a => [0b0100#4 ++ addrHi a, addrLo a]
  | .jms a => [0b0101#4 ++ addrHi a, addrLo a]
  | .bbl d => [0b1100#4 ++ d]
  | .jin p => [0b0011#4 ++ pairBits p 1#1]
  | .isz r b => [0b0111#4 ++ regBits r, b]
  | .jcnC1 b => [0b00010010#8, b]
  | .jcnAZ b => [0b00010100#8, b]
  | .jcnC0 b => [0b00011010#8, b]
  | .jcnAN b => [0b00011100#8, b]
  | .src p => [0b0010#4 ++ pairBits p 1#1]
  | .wrm => [0b11100000#8]
  | .rdm => [0b11101001#8]
  | .adm => [0b11101011#8]
  | .sbm => [0b11101000#8]

/-- The two bytes of a word numbered as spec/opcode_table.json numbers it (bit 0 the least significant bit of the first
byte, the second byte at bits 15..8); every bit at or above `nbits` is 0. -/
def tableWordBytes (nbits w : Nat) : Byte × Byte :=
  (BitVec.ofNat 8 (w % 2 ^ nbits), BitVec.ofNat 8 (w % 2 ^ nbits / 256))

/-- The instruction the decoder reads from such a word. -/
def decodeTableWord (nbits w : Nat) : Option Instr :=
  match decodeBytes [(tableWordBytes nbits w).1, (tableWordBytes nbits w).2] with
  | .ok (i, _) => some i
  | .error _ => none

end Sys2Proof
end

