-- ==== Sys2Proof/Machine/State.lean ====
section
/-! DEFINITION. The state record of spec/10_state.md section 1 as plain data, and its reset value (R19). The core has no
state beyond it (R20). -/

namespace Sys2Proof.Machine

/-- The four faults of Table G-1 (R130). A faulting step is a NEXT state whose `status` records the kind (R131); a step
request on a core that is already `Faulted(kind)` is answered `Outcome.fault kind` (R133, R152). Safe: no effect follows a
fault (log entry 1). -/
inductive Fault where
  /-- Raised by `JMS` when the call stack holds 3 entries (R16, R112). Safe. -/
  | stackOverflow
  /-- Raised by `BBL` when the call stack is empty (R16, R113). Safe. -/
  | stackUnderflow
  /-- Raised by the meaning of an instruction term that no decoder produces: a register number outside 0..15, a pair index
  that is odd or outside 0..14, an address outside the program store (R130, R132). Safe. -/
  | preconditionViolation
  /-- Raised by the fetch of one of the 46 illegal opcode bytes (R53). Safe. -/
  | illegalOpcode
  deriving DecidableEq, Repr

/-- Why a step is refused. -/
inductive Refusal where
  /-- An instruction without a meaning. No arm of this model raises it. Safe. -/
  | notModelled (mnemonic : String)
  /-- Raised by `step` on a `Halted` core: it takes no step and the host is answered `Halted` (R68, R152). Safe (log
  entry 2). -/
  | halted
  deriving DecidableEq, Repr

/-- The run status (R18). -/
inductive Status where
  | running
  | halted
  | faulted (kind : Fault)
  deriving DecidableEq, Repr

/-- A memory: the entries that differ from 0, by rising address. An address not listed reads as 0, the reset value of both
stores (R19, R151). `Memory 8` is a list of `Host.Cell`. -/
abbrev Memory (w : Nat) := List (Nat × BitVec w)

/-- The state record (10_state.md section 1). -/
structure State where
  /-- `x[0]` .. `x[15]` (R10). -/
  regs : Vector Nibble Config.numRegs
  /-- The accumulator `A` (R12). -/
  acc : Nibble
  /-- The carry flag `CY` (R13). -/
  cy : Bit
  /-- The program counter (R14). -/
  pc : Addr
  /-- The data pointer `DP` (R15). -/
  dp : Byte
  /-- The call stack `STK`, most recent entry last (R16). -/
  stk : List Addr
  /-- The cycle total (R17). -/
  cycles : Nat
  /-- The run status (R18). -/
  status : Status
  /-- The program store `ROM` (R30). -/
  rom : Memory 8
  /-- The data store `RAM` (R33). -/
  ram : Memory 4
  deriving DecidableEq, Repr

/-- The state right after a reset with the empty image (R19, R150, R151): every field zero or empty, `Running`. A program
comes in with the reset's image (`resetWith`, log entry 4). -/
def State.reset : State where
  regs := Vector.replicate Config.numRegs 0#4
  acc := 0#4
  cy := 0#1
  pc := 0#12
  dp := 0#8
  stk := []
  cycles := 0
  status := .running
  rom := []
  ram := []

end Sys2Proof.Machine
end

