-- ==== Sys2Proof/Machine/Flags.lean ====
section
/-! DEFINITION. The 4-bit ALU (R90, R91) and the other carry computations (R95, R96, R105, R106), each answering the
result and the carry out. `CY = 1` means no borrow, into and out of a subtraction and out of `DAC` (spec decision D8, log
entry 11). -/

namespace Sys2Proof.Machine

/-- `add4(a, b, cin)` (R90). -/
def add4 (a b : Nibble) (cin : Bit) : Nibble × Bit :=
  let sum := a.toNat + b.toNat + cin.toNat
  (BitVec.ofNat 4 sum, if sum > 15 then 1#1 else 0#1)

/-- `sub4(a, b, cin) = add4(a, 15 - b, cin)` (R91). -/
def sub4 (a b : Nibble) (cin : Bit) : Nibble × Bit := add4 a (BitVec.ofNat 4 (15 - b.toNat)) cin

/-- `(v + 1) & 0xF` (R94, R115). -/
def inc4 (v : Nibble) : Nibble := BitVec.ofNat 4 (v.toNat + 1)

/-- `IAC` (R95): `s = A + 1; A <- s & 0xF; CY <- (s > 15 ? 1 : 0)`. -/
def iac4 (a : Nibble) : Nibble × Bit :=
  let sum := a.toNat + 1
  (BitVec.ofNat 4 sum, if sum > 15 then 1#1 else 0#1)

/-- `DAC` (R96): `b = (A = 0); A <- (A + 15) & 0xF; CY <- (b ? 0 : 1)`. -/
def dac4 (a : Nibble) : Nibble × Bit :=
  (BitVec.ofNat 4 (a.toNat + 15), if a = 0#4 then 0#1 else 1#1)

/-- The 4-bit complement `15 - v` (R104). -/
def compl4 (a : Nibble) : Nibble := BitVec.ofNat 4 (15 - a.toNat)

/-- `CMC`: `1 - CY` (R102). -/
def complCy (c : Bit) : Bit := BitVec.ofNat 1 (1 - c.toNat)

/-- `RAL` (R105): `A <- {a[2:0]:3, c:1}; CY <- a[3]`. -/
def ral4 (a : Nibble) (c : Bit) : Nibble × Bit := (a.extractLsb' 0 3 ++ c, a.extractLsb' 3 1)

/-- `RAR` (R106): `A <- {c:1, a[3:1]:3}; CY <- a[0]`. -/
def rar4 (a : Nibble) (c : Bit) : Nibble × Bit := (c ++ a.extractLsb' 1 3, a.extractLsb' 0 1)

end Sys2Proof.Machine
end

