-- ==== Sys2Proof/Machine/Ops.lean ====
section
/-! DEFINITION. The shared operations over memory, registers and the call stack, the one way a fault is taken (R131) and
the one way a step is completed (R70, R71). There is no return from a fault: nothing but reset leaves `Faulted` (R133). -/

namespace Sys2Proof.Machine

/-- The answer of a step or of a meaning. -/
abbrev Result := Host.Outcome State Fault Refusal

/-! ### Memory -/

/-- The entry at an address; 0 where none is listed. -/
def Memory.read {w : Nat} : Memory w → Nat → BitVec w
  | [], _ => 0#w
  | (b, v) :: m, a => if a = b then v else Memory.read m a

/-- Write one entry, keeping the canonical form: addresses strictly rising, no entry 0. -/
def Memory.write {w : Nat} : Memory w → Nat → BitVec w → Memory w
  | [], a, v => if v = 0#w then [] else [(a, v)]
  | (b, u) :: m, a, v =>
    if a < b then (if v = 0#w then (b, u) :: m else (a, v) :: (b, u) :: m)
    else if a = b then (if v = 0#w then m else (a, v) :: m)
    else (b, u) :: Memory.write m a v

/-- The entries are at strictly rising addresses from `lo` on, below `size`, and none is 0. -/
def Memory.wfFrom {w : Nat} (size : Nat) : Nat → Memory w → Bool
  | _, [] => true
  | lo, (a, v) :: m => decide (lo ≤ a) && decide (a < size) && decide (v ≠ 0#w) && Memory.wfFrom size (a + 1) m

/-- The canonical form of a memory of `size` addresses. -/
def Memory.wf {w : Nat} (size : Nat) (m : Memory w) : Bool := Memory.wfFrom size 0 m

/-- The program store that a byte sequence fills from address `a` on (R151: `ROM[i] <- img[i]`, every other byte 0). -/
def imageFrom : Nat → List Byte → Memory 8
  | _, [] => []
  | a, b :: bs => if b = 0#8 then imageFrom (a + 1) bs else (a, b) :: imageFrom (a + 1) bs

/-- `ProgRead(addr)` (R31). -/
def State.progRead (s : State) (a : Addr) : Byte := s.rom.read a.toNat

/-- `MemRead(addr, 1)` (R34). -/
def State.memRead (s : State) (a : Byte) : Nibble := s.ram.read a.toNat

/-- The program store replaced: the image load (R151). -/
def State.setRom (s : State) (m : Memory 8) : State := { s with rom := m }

/-- The data store replaced. -/
def State.setRam (s : State) (m : Memory 4) : State := { s with ram := m }

/-- `MemWrite(addr, 1, v)` (R35). -/
def State.memWrite (s : State) (a : Byte) (v : Nibble) : State := s.setRam (s.ram.write a.toNat v)

/-! ### Registers, accumulator, carry, data pointer -/

/-- `x[r]` (R10). No meaning reads a number outside 0..15 (`checked`, R132); there it answers 0. -/
def State.reg (s : State) (r : Nat) : Nibble := s.regs[r]?.getD 0#4

/-- `x[r] <- v` (R10); a number outside 0..15 writes nothing. -/
def State.setReg (s : State) (r : Nat) (v : Nibble) : State := { s with regs := s.regs.setIfInBounds r v }

/-- `pair(p) = {x[p]:4, x[p+1]:4}` (R11, R38). -/
def State.pair (s : State) (p : Nat) : Byte := s.reg p ++ s.reg (p + 1)

/-- `setpair(p, b)`: `x[p] <- b[7:4]; x[p+1] <- b[3:0]` (R11, R38). -/
def State.setPair (s : State) (p : Nat) (b : Byte) : State :=
  (s.setReg p (hiNibble b)).setReg (p + 1) (loNibble b)

/-- `A <- v` (R12). -/
def State.setAcc (s : State) (v : Nibble) : State := { s with acc := v }

/-- `CY <- c` (R13). -/
def State.setCy (s : State) (c : Bit) : State := { s with cy := c }

/-- `A <- v; CY <- c`, for a result with its carry. -/
def State.setAccCy (s : State) (r : Nibble × Bit) : State := (s.setAcc r.1).setCy r.2

/-- `DP <- b` (R15). -/
def State.setDp (s : State) (b : Byte) : State := { s with dp := b }

/-- The call stack replaced. -/
def State.setStk (s : State) (k : List Addr) : State := { s with stk := k }

/-- `status <- v` (R18). -/
def State.setStatus (s : State) (v : Status) : State := { s with status := v }

/-! ### Call stack -/

/-- `push(v)` (R16): `StackOverflow` when 3 entries are held, else `v` becomes the last entry. -/
def State.push (s : State) (v : Addr) : Except Fault State :=
  if s.stk.length < Config.stackDepth then .ok (s.setStk (s.stk ++ [v])) else .error .stackOverflow

/-- `pop()` (R16): `StackUnderflow` on an empty stack, else the last entry and the state without it. -/
def State.pop (s : State) : Except Fault (Addr × State) :=
  match s.stk.getLast? with
  | none => .error .stackUnderflow
  | some v => .ok (v, s.setStk s.stk.dropLast)

/-! ### Ending a step -/

/-- `raise F()` (R131): nothing of the step is written but `status <- Faulted(kind)`; `pc` stays at the faulting
instruction and `cycles` does not grow. -/
def raise (k : Fault) (s : State) : Result := .next (s.setStatus (.faulted k))

/-- The cause code of a fault (Table G-1). -/
def Fault.code : Fault → Nat
  | .stackOverflow => 0
  | .stackUnderflow => 1
  | .preconditionViolation => 2
  | .illegalOpcode => 3

/-- The end of a completed step (R70, R71): `pc` is the target the instruction assigned, or advances by its length modulo
4096; `cycles` grows by the cost. `assigned` is the mark of R70: it says whether the instruction executed `pc <- t`, and a
target equal to the old `pc` is still an assignment. -/
def State.retire (s : State) (assigned : Option Addr) (len : Nat) : State :=
  { s with pc := assigned.getD (s.pc + BitVec.ofNat 12 len), cycles := s.cycles + cycleCost len }

end Sys2Proof.Machine
end

