-- ==== Sys2Proof/Machine/Operands.lean ====
section
/-! DEFINITION. Operand forms: the check of a term's operands before it executes (R130, R132) and the addresses that
operands name (R61, R62, R84, R110). -/

namespace Sys2Proof.Machine

/-- Check (3) of R132: `PreconditionViolation` before execution when an operand of the term is malformed. -/
def checked (ok : Bool) (s : State) (r : Result) : Result :=
  if ok then r else raise .preconditionViolation s

/-- The 12-bit target of an absolute address operand (R61). -/
def absTarget (a : Nat) : Addr := BitVec.ofNat 12 a

/-- The in-page target `{pc[11:8]:4, offset:8}`, `pc` being the instruction's own address (R62, R114). -/
def pageTarget (pc : Addr) (off : Byte) : Addr := pc.extractLsb' 8 4 ++ off

/-- The program-store address `FIN` reads: pair 0 as a 12-bit address, always in page 0 (R84). -/
def finAddr (s : State) : Addr := (s.pair 0).setWidth 12

/-- The return address `JMS` pushes, `(pc + 2) & 0xFFF` (R112). -/
def returnAddr (s : State) : Addr := s.pc + 2#12

/-- The end of a two-byte conditional jump (R115, R116): to the in-page target when `taken`, else past the instruction. -/
def State.branch (s : State) (taken : Bool) (off : Byte) : State :=
  s.retire (if taken then some (pageTarget s.pc off) else none) 2

end Sys2Proof.Machine
end

