-- ==== Sys2Proof/Machine/Arithmetic.lean ====
section
/-! DEFINITION. Arithmetic instructions (spec/41_arithmetic.md). -/

namespace Sys2Proof.Machine

/-- `ADD r` (R92): `add4(A, x[r], CY)`. -/
def execAdd (r : Nat) (s : State) : Result :=
  checked (regOk r) s (.next ((s.setAccCy (add4 s.acc (s.reg r) s.cy)).retire none 1))

/-- `SUB r` (R93): `sub4(A, x[r], CY)`. -/
def execSub (r : Nat) (s : State) : Result :=
  checked (regOk r) s (.next ((s.setAccCy (sub4 s.acc (s.reg r) s.cy)).retire none 1))

/-- `INC r` (R94): `x[r] <- (x[r] + 1) & 0xF`, `CY` untouched. -/
def execInc (r : Nat) (s : State) : Result :=
  checked (regOk r) s (.next ((s.setReg r (inc4 (s.reg r))).retire none 1))

/-- `IAC` (R95). -/
def execIac (s : State) : Result := .next ((s.setAccCy (iac4 s.acc)).retire none 1)

/-- `DAC` (R96). -/
def execDac (s : State) : Result := .next ((s.setAccCy (dac4 s.acc)).retire none 1)

end Sys2Proof.Machine
end

