-- ==== Sys2Proof/Machine/ControlTransfer.lean ====
section
/-! DEFINITION. Control-transfer instructions (spec/43_control_transfer.md). -/

namespace Sys2Proof.Machine

/-- `JUN addr12` (R111): `pc <- addr12`. -/
def execJun (addr12 : Nat) (s : State) : Result :=
  checked (progAddrOk addr12) s (.next (s.retire (some (absTarget addr12)) 2))

/-- `JMS addr12` (R112): `push((pc + 2) & 0xFFF); pc <- addr12`, or `StackOverflow`. -/
def execJms (addr12 : Nat) (s : State) : Result :=
  checked (progAddrOk addr12) s
    (match s.push (returnAddr s) with
    | .error k => raise k s
    | .ok s' => .next (s'.retire (some (absTarget addr12)) 2))

/-- `BBL imm` (R113): `t = pop(); pc <- t; A <- imm`, or `StackUnderflow`. -/
def execBbl (imm : Nibble) (s : State) : Result :=
  match s.pop with
  | .error k => raise k s
  | .ok (t, s') => .next ((s'.setAcc imm).retire (some t) 1)

/-- `JIN rp` (R114): `pc <- {pc[11:8]:4, pair(rp):8}`. -/
def execJin (rp : Nat) (s : State) : Result :=
  checked (pairOk rp) s (.next (s.retire (some (pageTarget s.pc (s.pair rp))) 1))

/-- `ISZ r, addr` (R115): `v = (x[r] + 1) & 0xF; x[r] <- v`, and a jump when `v = 0`. -/
def execIsz (r : Nat) (addr8 : Byte) (s : State) : Result :=
  checked (regOk r) s (.next ((s.setReg r (inc4 (s.reg r))).branch (decide (inc4 (s.reg r) = 0#4)) addr8))

/-- `JCN C1, addr` (R116, condition 0x2): jump if `CY = 1`. -/
def execJcnC1 (addr8 : Byte) (s : State) : Result := .next (s.branch (decide (s.cy = 1#1)) addr8)

/-- `JCN AZ, addr` (R116, condition 0x4): jump if `A = 0`. -/
def execJcnAZ (addr8 : Byte) (s : State) : Result := .next (s.branch (decide (s.acc = 0#4)) addr8)

/-- `JCN C0, addr` (R116, condition 0xA): jump if `CY = 0`. -/
def execJcnC0 (addr8 : Byte) (s : State) : Result := .next (s.branch (decide (s.cy = 0#1)) addr8)

/-- `JCN AN, addr` (R116, condition 0xC): jump if `A != 0`. -/
def execJcnAN (addr8 : Byte) (s : State) : Result := .next (s.branch (decide (s.acc ≠ 0#4)) addr8)

end Sys2Proof.Machine
end

