-- ==== Sys2Proof/Machine/LoadMove.lean ====
section
/-! DEFINITION. Load and move instructions (spec/40_load_move.md). -/

namespace Sys2Proof.Machine

/-- `LDM imm` (R80): `A <- imm`. -/
def execLdm (imm : Nibble) (s : State) : Result := .next ((s.setAcc imm).retire none 1)

/-- `LD r` (R81): `A <- x[r]`. -/
def execLd (r : Nat) (s : State) : Result :=
  checked (regOk r) s (.next ((s.setAcc (s.reg r)).retire none 1))

/-- `XCH r` (R82): `t = A; A <- x[r]; x[r] <- t`. -/
def execXch (r : Nat) (s : State) : Result :=
  checked (regOk r) s (.next (((s.setAcc (s.reg r)).setReg r s.acc).retire none 1))

/-- `FIM rp, imm8` (R83): `setpair(rp, imm8)`. -/
def execFim (rp : Nat) (imm8 : Byte) (s : State) : Result :=
  checked (pairOk rp) s (.next ((s.setPair rp imm8).retire none 2))

/-- `FIN rp` (R84): `setpair(rp, ProgRead(pair(0)))`, the address read before the pair is written. -/
def execFin (rp : Nat) (s : State) : Result :=
  checked (pairOk rp) s (.next ((s.setPair rp (s.progRead (finAddr s))).retire none 1))

end Sys2Proof.Machine
end

