-- ==== Sys2Proof/Machine/LogicFlags.lean ====
section
/-! DEFINITION. Logic, carry and rotate instructions (spec/42_logic_flags.md). -/

namespace Sys2Proof.Machine

/-- `CLC` (R100): `CY <- 0`. -/
def execClc (s : State) : Result := .next ((s.setCy 0#1).retire none 1)

/-- `STC` (R101): `CY <- 1`. -/
def execStc (s : State) : Result := .next ((s.setCy 1#1).retire none 1)

/-- `CMC` (R102): `CY <- 1 - CY`. -/
def execCmc (s : State) : Result := .next ((s.setCy (complCy s.cy)).retire none 1)

/-- `CLB` (R103): `A <- 0; CY <- 0`. -/
def execClb (s : State) : Result := .next ((s.setAccCy (0#4, 0#1)).retire none 1)

/-- `CMA` (R104): `A <- 15 - A`. -/
def execCma (s : State) : Result := .next ((s.setAcc (compl4 s.acc)).retire none 1)

/-- `RAL` (R105). -/
def execRal (s : State) : Result := .next ((s.setAccCy (ral4 s.acc s.cy)).retire none 1)

/-- `RAR` (R106). -/
def execRar (s : State) : Result := .next ((s.setAccCy (rar4 s.acc s.cy)).retire none 1)

/-- `TCC` (R107): `c = CY; A <- c; CY <- 0`. -/
def execTcc (s : State) : Result := .next ((s.setAccCy (s.cy.setWidth 4, 0#1)).retire none 1)

end Sys2Proof.Machine
end

