-- ==== Sys2Proof/Machine/MemoryAccess.lean ====
section
/-! DEFINITION. Data-memory access instructions (spec/44_memory_access.md). The effective address is `DP`. -/

namespace Sys2Proof.Machine

/-- `SRC rp` (R120): `DP <- pair(rp)`. -/
def execSrc (rp : Nat) (s : State) : Result :=
  checked (pairOk rp) s (.next ((s.setDp (s.pair rp)).retire none 1))

/-- `WRM` (R121): `MemWrite(DP, 1, A)`. -/
def execWrm (s : State) : Result := .next ((s.memWrite s.dp s.acc).retire none 1)

/-- `RDM` (R122): `A <- MemRead(DP, 1)`. -/
def execRdm (s : State) : Result := .next ((s.setAcc (s.memRead s.dp)).retire none 1)

/-- `ADM` (R123): `add4(A, MemRead(DP, 1), CY)`. -/
def execAdm (s : State) : Result :=
  .next ((s.setAccCy (add4 s.acc (s.memRead s.dp) s.cy)).retire none 1)

/-- `SBM` (R124): `sub4(A, MemRead(DP, 1), CY)`. -/
def execSbm (s : State) : Result :=
  .next ((s.setAccCy (sub4 s.acc (s.memRead s.dp) s.cy)).retire none 1)

end Sys2Proof.Machine
end

