-- ==== Sys2Proof/Machine/Dispatch.lean ====
section
/-! DEFINITION. `exec`: the execute phase of a step (Listing E-4, R68), one arm per instruction. -/

namespace Sys2Proof.Machine

def exec (i : Instr) (s : State) : Host.Outcome State Fault Refusal :=
  match i with
  | .ldm imm => Sys2Proof.Machine.execLdm imm s
  | .ld r => Sys2Proof.Machine.execLd r s
  | .xch r => Sys2Proof.Machine.execXch r s
  | .fim rp imm8 => Sys2Proof.Machine.execFim rp imm8 s
  | .fin rp => Sys2Proof.Machine.execFin rp s
  | .add r => Sys2Proof.Machine.execAdd r s
  | .sub r => Sys2Proof.Machine.execSub r s
  | .inc r => Sys2Proof.Machine.execInc r s
  | .iac => Sys2Proof.Machine.execIac s
  | .dac => Sys2Proof.Machine.execDac s
  | .clc => Sys2Proof.Machine.execClc s
  | .stc => Sys2Proof.Machine.execStc s
  | .cmc => Sys2Proof.Machine.execCmc s
  | .clb => Sys2Proof.Machine.execClb s
  | .cma => Sys2Proof.Machine.execCma s
  | .ral => Sys2Proof.Machine.execRal s
  | .rar => Sys2Proof.Machine.execRar s
  | .tcc => Sys2Proof.Machine.execTcc s
  | .jun addr12 => Sys2Proof.Machine.execJun addr12 s
  | .jms addr12 => Sys2Proof.Machine.execJms addr12 s
  | .bbl imm => Sys2Proof.Machine.execBbl imm s
  | .jin rp => Sys2Proof.Machine.execJin rp s
  | .isz r addr8 => Sys2Proof.Machine.execIsz r addr8 s
  | .jcnC1 addr8 => Sys2Proof.Machine.execJcnC1 addr8 s
  | .jcnAZ addr8 => Sys2Proof.Machine.execJcnAZ addr8 s
  | .jcnC0 addr8 => Sys2Proof.Machine.execJcnC0 addr8 s
  | .jcnAN addr8 => Sys2Proof.Machine.execJcnAN addr8 s
  | .src rp => Sys2Proof.Machine.execSrc rp s
  | .wrm => Sys2Proof.Machine.execWrm s
  | .rdm => Sys2Proof.Machine.execRdm s
  | .adm => Sys2Proof.Machine.execAdm s
  | .sbm => Sys2Proof.Machine.execSbm s

end Sys2Proof.Machine
end

