-- ==== Sys2Proof/Machine/Fetch.lean ====
section
/-! DEFINITION. Fetch and decode at `pc` (R69) and the running core's step (Listing E-4, R68). -/

namespace Sys2Proof.Machine

/-- The address of the operand byte, `(pc + 1) & 0xFFF` (R69). -/
def operandAddr (s : State) : Addr := s.pc + 1#12

/-- The instruction at `pc`, or none where the opcode byte is illegal. The operand byte is read only for a two-byte
instruction (R53, R69). -/
def State.fetchDecode (s : State) : Option Instr :=
  match decodeOpcode (s.progRead s.pc) with
  | .illegal => none
  | .oneByte i => some i
  | .twoByte h => some (h.complete (s.progRead (operandAddr s)))

/-- One fetch-decode-execute cycle (R68); an illegal opcode byte raises `IllegalOpcode` (R53). -/
def runningStep (s : State) : Result :=
  match s.fetchDecode with
  | none => raise .illegalOpcode s
  | some i => exec i s

/-- A step request by the run status (R68, R133, R152): a `Faulted` core answers the same fault again, a `Halted` core
takes no step, and neither changes anything. -/
def stepByStatus (s : State) : Result :=
  match s.status with
  | .running => runningStep s
  | .faulted k => .fault k
  | .halted => .refused .halted

/-- Two bytes placed at `pc` and `pc + 1` of the program store, and the core `Running`. -/
def placeAtPc (s : State) (b0 b1 : Byte) : State :=
  (s.setRom ((s.rom.write s.pc.toNat b0).write (operandAddr s).toNat b1)).setStatus .running

end Sys2Proof.Machine
end

