-- ==== Sys2Proof/Machine/Step.lean ====
section
/-! DEFINITION. The step of the machine (R68), and an instruction word placed where the next step fetches (log entry 4). -/

namespace Sys2Proof.Machine

/-- One step request (R68, R152). -/
def step (s : State) : Host.Outcome State Fault Refusal := stepByStatus s

/-- The state with a table word's bytes where `step` fetches its next instruction. It stands for the image load at reset
(R151), which is the only way a byte enters the program store. -/
def State.withFetchWord (s : State) (nbits w : Nat) : State :=
  placeAtPc s (tableWordBytes nbits w).1 (tableWordBytes nbits w).2

end Sys2Proof.Machine
end

