-- ==== Sys2Proof/Machine/Assembly.lean ====
section
/-! DEFINITION. The assembler notation of R66 (notation only, spec decision D22, log entry 22): a mnemonic and its
operands, to and from instruction terms. There are no pseudo-instructions (R67). -/

namespace Sys2Proof.Machine

/-- The 29 mnemonics (R52). -/
inductive Mnemonic where
  | LDM | LD | XCH | FIM | FIN | ADD | SUB | INC | IAC | DAC | CLC | STC | CMC | CLB | CMA | RAL | RAR | TCC
  | JUN | JMS | BBL | JIN | ISZ | JCN | SRC | WRM | RDM | ADM | SBM
  deriving DecidableEq, Repr

/-- The four `JCN` conditions (R63, R66). -/
inductive Cond where
  | C1 | AZ | C0 | AN
  deriving DecidableEq, Repr

/-- An operand as written: a number, or a condition's name. -/
inductive AsmOperand where
  | num (n : Nat)
  | cond (c : Cond)
  deriving DecidableEq, Repr

/-- One line of assembly: a mnemonic followed by its operands. -/
structure AsmLine where
  mnemonic : Mnemonic
  operands : List AsmOperand
  deriving DecidableEq, Repr

/-- The condition's number (R66). -/
def Cond.value : Cond → Nat
  | .C1 => 2
  | .AZ => 4
  | .C0 => 10
  | .AN => 12

/-- The condition of an operand written as its name or its number. -/
def AsmOperand.asCond : AsmOperand → Option Cond
  | .cond c => some c
  | .num n => if n = 2 then some .C1 else if n = 4 then some .AZ else if n = 10 then some .C0
    else if n = 12 then some .AN else none

/-- The full address of an in-page offset, as `JCN` and `ISZ` are written (R66). -/
def asmPageAddr (pc : Addr) (off : Byte) : Nat := (pc.extractLsb' 8 4 ++ off).toNat

/-- The offset of a full 12-bit address that lies in the instruction's own page; none elsewhere (R66). -/
def asmOffset (pc : Addr) (a : Nat) : Option Byte :=
  if a / 256 = pc.toNat / 256 then some (BitVec.ofNat 8 a) else none

/-- The jump of a condition. -/
def Cond.instr (c : Cond) (off : Byte) : Instr :=
  match c with
  | .C1 => .jcnC1 off
  | .AZ => .jcnAZ off
  | .C0 => .jcnC0 off
  | .AN => .jcnAN off

/-- The line that stands for an instruction whose opcode byte is at `pc` (R66, column "assembly" of the opcode table). -/
def toAsm (pc : Addr) : Instr → AsmLine
  | .ldm d => ⟨.LDM, [.num d.toNat]⟩
  | .ld r => ⟨.LD, [.num r]⟩
  | .xch r => ⟨.XCH, [.num r]⟩
  | .fim p d => ⟨.FIM, [.num p, .num d.toNat]⟩
  | .fin p => ⟨.FIN, [.num p]⟩
  | .add r => ⟨.ADD, [.num r]⟩
  | .sub r => ⟨.SUB, [.num r]⟩
  | .inc r => ⟨.INC, [.num r]⟩
  | .iac => ⟨.IAC, []⟩
  | .dac => ⟨.DAC, []⟩
  | .clc => ⟨.CLC, []⟩
  | .stc => ⟨.STC, []⟩
  | .cmc => ⟨.CMC, []⟩
  | .clb => ⟨.CLB, []⟩
  | .cma => ⟨.CMA, []⟩
  | .ral => ⟨.RAL, []⟩
  | .rar => ⟨.RAR, []⟩
  | .tcc => ⟨.TCC, []⟩
  | .jun a => ⟨.JUN, [.num a]⟩
  | .jms a => ⟨.JMS, [.num a]⟩
  | .bbl d => ⟨.BBL, [.num d.toNat]⟩
  | .jin p => ⟨.JIN, [.num p]⟩
  | .isz r b => ⟨.ISZ, [.num r, .num (asmPageAddr pc b)]⟩
  | .jcnC1 b => ⟨.JCN, [.cond .C1, .num (asmPageAddr pc b)]⟩
  | .jcnAZ b => ⟨.JCN, [.cond .AZ, .num (asmPageAddr pc b)]⟩
  | .jcnC0 b => ⟨.JCN, [.cond .C0, .num (asmPageAddr pc b)]⟩
  | .jcnAN b => ⟨.JCN, [.cond .AN, .num (asmPageAddr pc b)]⟩
  | .src p => ⟨.SRC, [.num p]⟩
  | .wrm => ⟨.WRM, []⟩
  | .rdm => ⟨.RDM, []⟩
  | .adm => ⟨.ADM, []⟩
  | .sbm => ⟨.SBM, []⟩

/-- A line with no operand. -/
def asmNone (i : Instr) (ops : List AsmOperand) : Option Instr :=
  match ops with
  | [] => some i
  | _ => none

/-- A line with one number that passes the operand's check. -/
def asmOne (ok : Nat → Bool) (mk : Nat → Instr) (ops : List AsmOperand) : Option Instr :=
  match ops with
  | [.num n] => if ok n then some (mk n) else none
  | _ => none

/-- `FIM rp, imm8`. -/
def asmFim (ops : List AsmOperand) : Option Instr :=
  match ops with
  | [.num p, .num d] => if pairOk p && decide (d < 256) then some (.fim p (BitVec.ofNat 8 d)) else none
  | _ => none

/-- `ISZ r, addr`. -/
def asmIsz (pc : Addr) (ops : List AsmOperand) : Option Instr :=
  match ops with
  | [.num r, .num a] => if regOk r then (asmOffset pc a).map (.isz r) else none
  | _ => none

/-- `JCN cond, addr`. -/
def asmJcn (pc : Addr) (ops : List AsmOperand) : Option Instr :=
  match ops with
  | [c, .num a] => c.asCond.bind fun c => (asmOffset pc a).map c.instr
  | _ => none

/-- A 4-bit immediate as written, 0..15. -/
def imm4Ok (n : Nat) : Bool := decide (n < 16)

/-- The instruction a line at `pc` stands for; none for a line R66 does not allow. -/
def assemble (pc : Addr) (l : AsmLine) : Option Instr :=
  match l.mnemonic with
  | .LDM => asmOne imm4Ok (fun n => .ldm (BitVec.ofNat 4 n)) l.operands
  | .LD => asmOne regOk .ld l.operands
  | .XCH => asmOne regOk .xch l.operands
  | .FIM => asmFim l.operands
  | .FIN => asmOne pairOk .fin l.operands
  | .ADD => asmOne regOk .add l.operands
  | .SUB => asmOne regOk .sub l.operands
  | .INC => asmOne regOk .inc l.operands
  | .IAC => asmNone .iac l.operands
  | .DAC => asmNone .dac l.operands
  | .CLC => asmNone .clc l.operands
  | .STC => asmNone .stc l.operands
  | .CMC => asmNone .cmc l.operands
  | .CLB => asmNone .clb l.operands
  | .CMA => asmNone .cma l.operands
  | .RAL => asmNone .ral l.operands
  | .RAR => asmNone .rar l.operands
  | .TCC => asmNone .tcc l.operands
  | .JUN => asmOne progAddrOk .jun l.operands
  | .JMS => asmOne progAddrOk .jms l.operands
  | .BBL => asmOne imm4Ok (fun n => .bbl (BitVec.ofNat 4 n)) l.operands
  | .JIN => asmOne pairOk .jin l.operands
  | .ISZ => asmIsz pc l.operands
  | .JCN => asmJcn pc l.operands
  | .SRC => asmOne pairOk .src l.operands
  | .WRM => asmNone .wrm l.operands
  | .RDM => asmNone .rdm l.operands
  | .ADM => asmNone .adm l.operands
  | .SBM => asmNone .sbm l.operands

/-- The mnemonic's spelling. -/
def Mnemonic.text : Mnemonic → String
  | .LDM => "LDM"
  | .LD => "LD"
  | .XCH => "XCH"
  | .FIM => "FIM"
  | .FIN => "FIN"
  | .ADD => "ADD"
  | .SUB => "SUB"
  | .INC => "INC"
  | .IAC => "IAC"
  | .DAC => "DAC"
  | .CLC => "CLC"
  | .STC => "STC"
  | .CMC => "CMC"
  | .CLB => "CLB"
  | .CMA => "CMA"
  | .RAL => "RAL"
  | .RAR => "RAR"
  | .TCC => "TCC"
  | .JUN => "JUN"
  | .JMS => "JMS"
  | .BBL => "BBL"
  | .JIN => "JIN"
  | .ISZ => "ISZ"
  | .JCN => "JCN"
  | .SRC => "SRC"
  | .WRM => "WRM"
  | .RDM => "RDM"
  | .ADM => "ADM"
  | .SBM => "SBM"

/-- The condition's spelling. -/
def Cond.text : Cond → String
  | .C1 => "C1"
  | .AZ => "AZ"
  | .C0 => "C0"
  | .AN => "AN"

/-- An operand's spelling; numbers are written in decimal. -/
def AsmOperand.text : AsmOperand → String
  | .num n => Nat.repr n
  | .cond c => c.text

/-- A line's spelling: the mnemonic, then the operands separated by commas (R66). -/
def AsmLine.text (l : AsmLine) : String :=
  match l.operands with
  | [] => l.mnemonic.text
  | o :: os => l.mnemonic.text ++ " " ++ ", ".intercalate ((o :: os).map AsmOperand.text)

end Sys2Proof.Machine
end

