-- ==== Sys2Proof/Machine/HostRequests.lean ====
section
/-! DEFINITION. The host's requests on the core, each served between steps (spec/70_reset_and_hazards.md, R150 to R154):
reset with an image, step, halt, inspection. -/

namespace Sys2Proof.Machine

/-- What the host may ask of the core (70_reset_and_hazards.md section 1). -/
inductive Request where
  | reset (img : List Byte)
  | step
  | halt
  | inspect
  deriving DecidableEq, Repr

/-- What the core answers. -/
inductive Reply where
  /-- A reset that took place, or a halt request; the spec gives these no reply of their own. -/
  | done
  /-- A reset refused because its image is longer than the program store (R151). -/
  | resetRefused
  /-- The cycle cost of a completed step (R71, R152). -/
  | cost (n : Nat)
  /-- The step faulted, or the core was already `Faulted` (R152). -/
  | fault (kind : Fault)
  /-- The core was `Halted` (R152). -/
  | halted
  /-- Every state field (R153). -/
  | inspected (s : State)
  deriving DecidableEq, Repr

/-- The state after a reset with an image that fits (R19, R150, R151). -/
def resetWith (img : List Byte) : State := State.reset.setRom (imageFrom 0 img)

/-- A reset request (R150, R151): an image of more than 4096 bytes is refused and nothing changes. -/
def requestReset (img : List Byte) (s : State) : State × Reply :=
  if img.length ≤ Config.progSize then (resetWith img, .done) else (s, .resetRefused)

/-- A halt request (R154): `Running` becomes `Halted`; nothing else changes. -/
def requestHalt (s : State) : State :=
  match s.status with
  | .running => s.setStatus .halted
  | .halted => s
  | .faulted _ => s

/-- The cost of the instruction at `pc`; 0 where the opcode byte is illegal. -/
def State.fetchCost (s : State) : Nat :=
  match s.fetchDecode with
  | none => 0
  | some i => i.cost

/-- The reply to a step taken from `s` that ended in `t` (R131, R152): the fault kind if the step faulted, else the cost. -/
def stepReply (s t : State) : Reply :=
  match t.status with
  | .faulted k => .fault k
  | .running => .cost s.fetchCost
  | .halted => .halted

/-- A step request (R68, R133, R152): a core that is `Faulted` or `Halted` says so and changes nothing. -/
def requestStep (s : State) : State × Reply :=
  match step s with
  | .next t => (t, stepReply s t)
  | .fault k => (s, .fault k)
  | .refused _ => (s, .halted)

/-- One request served. -/
def serve (q : Request) (s : State) : State × Reply :=
  match q with
  | .reset img => requestReset img s
  | .step => requestStep s
  | .halt => (requestHalt s, .done)
  | .inspect => (s, .inspected s)

/-- The state after a sequence of requests. -/
def serveAll : List Request → State → State
  | [], s => s
  | q :: qs, s => serveAll qs (serve q s).1

/-- The bytes of the instruction at `pc`: its opcode byte, and the operand byte where it asks for one (R130). -/
def State.bytesAtPc (s : State) : List Byte :=
  bif needsOperandByte (s.progRead s.pc) then [s.progRead s.pc, s.progRead (operandAddr s)] else [s.progRead s.pc]

/-- What the host reads of a fault (R130): its cause code, the faulting address (the unchanged `pc`) and the faulting
instruction's bytes, two for a two-byte instruction. None unless the core is `Faulted`. -/
def State.faultReport (s : State) : Option (Nat × Addr × List Byte) :=
  match s.status with
  | .faulted k => some (k.code, s.pc, s.bytesAtPc)
  | .running => none
  | .halted => none

end Sys2Proof.Machine
end

