-- ==== Sys2Proof/Machine/Ports.lean ====
section
/-! DEFINITION. The transactions of one step on the memory ports (R32, R36, R41): which program-store addresses the read
port carries, in order, and the at most one data-store access. The spec has no signal-level ports (spec decision D15). -/

namespace Sys2Proof.Machine

/-- The data-store access of an instruction (R36). -/
inductive DataAccess where
  | none
  | read (a : Byte)
  | write (a : Byte) (v : Nibble)
  deriving DecidableEq, Repr

/-- The program-store address an instruction reads as data: `FIN` alone reads one (R31, R84). -/
def progDataRead (i : Instr) (s : State) : List Addr :=
  match i with
  | .fin _ => [finAddr s]
  | .ldm _ | .ld _ | .xch _ | .fim _ _ | .add _ | .sub _ | .inc _ | .iac | .dac | .clc | .stc | .cmc | .clb | .cma | .ral
  | .rar | .tcc | .jun _ | .jms _ | .bbl _ | .jin _ | .isz _ _ | .jcnC1 _ | .jcnAZ _ | .jcnC0 _ | .jcnAN _ | .src _ | .wrm
  | .rdm | .adm | .sbm => []

/-- The data-store access an instruction makes (table of 20_memory.md section 3). -/
def dataAccess (i : Instr) (s : State) : DataAccess :=
  match i with
  | .wrm => .write s.dp s.acc
  | .rdm | .adm | .sbm => .read s.dp
  | .ldm _ | .ld _ | .xch _ | .fim _ _ | .fin _ | .add _ | .sub _ | .inc _ | .iac | .dac | .clc | .stc | .cmc | .clb | .cma
  | .ral | .rar | .tcc | .jun _ | .jms _ | .bbl _ | .jin _ | .isz _ _ | .jcnC1 _ | .jcnAZ _ | .jcnC0 _ | .jcnAN _ | .src _ =>
    .none

/-- The fetch reads of a step: the opcode byte, and the operand byte of a two-byte instruction (R69). -/
def fetchReads (s : State) : List Addr :=
  bif needsOperandByte (s.progRead s.pc) then [s.pc, operandAddr s] else [s.pc]

/-- The program-store reads of a step request, in order (R32); a core that is not `Running` reads nothing. -/
def progReads (s : State) : List Addr :=
  match s.status with
  | .running =>
    match s.fetchDecode with
    | Option.none => fetchReads s
    | some i => fetchReads s ++ progDataRead i s
  | .halted | .faulted _ => []

/-- The data-store access of a step request (R36). -/
def stepDataAccess (s : State) : DataAccess :=
  match s.status with
  | .running =>
    match s.fetchDecode with
    | Option.none => .none
    | some i => dataAccess i s
  | .halted | .faulted _ => .none

end Sys2Proof.Machine
end

