-- ==== Sys2Proof/Safety.lean ====
section
/-! DEFINITION. The terms claims are made in: the invariant of the state, what a safe run is, and which state each
instruction may write (R10 to R16, R30, R35). -/

namespace Sys2Proof.Machine

/-- The invariant: both stores are in canonical form within their sizes (R30, R33) and `depth <= 3` (R16). -/
abbrev State.Inv (s : State) : Prop :=
  s.rom.wf Config.progSize = true ∧ s.ram.wf Config.dataSize = true ∧ s.stk.length ≤ Config.stackDepth

/-- The core executes steps (R18). -/
abbrev State.Running (s : State) : Prop := s.status = .running

/-- The next state of an answer, if it is one. -/
def nextState : Result → Option State
  | .next t => some t
  | .fault _ => none
  | .refused _ => none

/-- Instructions executed one after the other, without fetch. -/
def execAll : List Instr → State → Result
  | [], s => .next s
  | i :: is, s =>
    match exec i s with
    | .next t => execAll is t
    | .fault k => .fault k
    | .refused r => .refused r

/-- A safe run of `n` steps: each step is taken from a `Running` core and none faults (R156: a fault is never a successful
end). -/
def SafeRun (n : Nat) (s : State) : Prop :=
  ∃ t, Host.Core.run Sys2Proof.core n s = .next t ∧ t.Running

/-- The registers an instruction writes (the writers of R10). -/
def regWrites : Instr → List Nat
  | .xch r | .inc r | .isz r _ => [r]
  | .fim p _ | .fin p => [p, p + 1]
  | .ldm _ | .ld _ | .add _ | .sub _ | .iac | .dac | .clc | .stc | .cmc | .clb | .cma | .ral | .rar | .tcc | .jun _ | .jms _
  | .bbl _ | .jin _ | .jcnC1 _ | .jcnAZ _ | .jcnC0 _ | .jcnAN _ | .src _ | .wrm | .rdm | .adm | .sbm => []

/-- The writers of `A` listed in R12. -/
def writesAcc : Instr → Bool
  | .ldm _ | .ld _ | .xch _ | .add _ | .sub _ | .iac | .dac | .clb | .cma | .ral | .rar | .tcc | .bbl _ | .rdm | .adm
  | .sbm => true
  | .fim _ _ | .fin _ | .inc _ | .clc | .stc | .cmc | .jun _ | .jms _ | .jin _ | .isz _ _ | .jcnC1 _ | .jcnAZ _ | .jcnC0 _
  | .jcnAN _ | .src _ | .wrm => false

/-- The writers of `CY` listed in R13. -/
def writesCy : Instr → Bool
  | .add _ | .sub _ | .iac | .dac | .clc | .stc | .cmc | .clb | .ral | .rar | .tcc | .adm | .sbm => true
  | .ldm _ | .ld _ | .xch _ | .fim _ _ | .fin _ | .inc _ | .cma | .jun _ | .jms _ | .bbl _ | .jin _ | .isz _ _ | .jcnC1 _
  | .jcnAZ _ | .jcnC0 _ | .jcnAN _ | .src _ | .wrm | .rdm => false

/-- `SRC`, the only writer of `DP` (R15). -/
def writesDp : Instr → Bool
  | .src _ => true
  | .ldm _ | .ld _ | .xch _ | .fim _ _ | .fin _ | .add _ | .sub _ | .inc _ | .iac | .dac | .clc | .stc | .cmc | .clb | .cma
  | .ral | .rar | .tcc | .jun _ | .jms _ | .bbl _ | .jin _ | .isz _ _ | .jcnC1 _ | .jcnAZ _ | .jcnC0 _ | .jcnAN _ | .wrm
  | .rdm | .adm | .sbm => false

/-- `JMS` and `BBL`, the only instructions that touch the call stack (R16). -/
def writesStk : Instr → Bool
  | .jms _ | .bbl _ => true
  | .ldm _ | .ld _ | .xch _ | .fim _ _ | .fin _ | .add _ | .sub _ | .inc _ | .iac | .dac | .clc | .stc | .cmc | .clb | .cma
  | .ral | .rar | .tcc | .jun _ | .jin _ | .isz _ _ | .jcnC1 _ | .jcnAZ _ | .jcnC0 _ | .jcnAN _ | .src _ | .wrm | .rdm | .adm
  | .sbm => false

/-- The control-transfer instructions, which alone may assign `pc` (R70, R110). -/
def mayAssignPc : Instr → Bool
  | .jun _ | .jms _ | .bbl _ | .jin _ | .isz _ _ | .jcnC1 _ | .jcnAZ _ | .jcnC0 _ | .jcnAN _ => true
  | .ldm _ | .ld _ | .xch _ | .fim _ _ | .fin _ | .add _ | .sub _ | .inc _ | .iac | .dac | .clc | .stc | .cmc | .clb | .cma
  | .ral | .rar | .tcc | .src _ | .wrm | .rdm | .adm | .sbm => false

end Sys2Proof.Machine
end

