-- ==== Sys2Proof/Certificates/Slice0/Obligations.lean ====
section
/-! DEFINITION. The statements for the provers. Each docstring names the rule of spec/ it rests on, and the spec's own
decision (92_eei_decisions.md) or the log entry for a clause that is no plain rule. In every statement about one
instruction the next state is given whole: what its record update does not name is unchanged (frame, spec decision D9,
log entry 12), and `pc` advances modulo 4096 (spec decision D5, log entry 7). -/

open Sys2Proof Sys2Proof.Machine

/-! ### Encoding and decoding -/

/-- R54: every opcode byte resolves to exactly one of illegal and a defined instruction, which comes with its length, its
cycle cost and its operands. -/
def Obligations.OpcodeDispatchResolvesEveryByte : Prop :=
  ∀ (o b : Byte) (rest : List Byte),
    (opcodeLength o = none ∧ decodeOpcode o = .illegal ∧ decodeBytes (o :: b :: rest) = .error (.illegalOpcode o)) ∨
      ∃ i : Instr, opcodeLength o = some i.length ∧ decodeOpcode o ≠ .illegal ∧ i.wellFormed = true ∧
        i.cost = (if i.length = 1 then 8 else 16) ∧ decodeBytes (o :: b :: rest) = .ok (i, (b :: rest).drop (i.length - 1))

/-- The 46 illegal bytes of R53 (spec decisions D1, D3, log entry 6), and no other. -/
def Obligations.IllegalBytesAreTheFortySix : Prop :=
  ∀ o : Byte, decodeOpcode o = .illegal ↔
    o.toNat ∈ [0x00, 0x01, 0x02, 0x03, 0x04, 0x05, 0x06, 0x07, 0x08, 0x09, 0x0A, 0x0B, 0x0C, 0x0D, 0x0E, 0x0F,
      0x10, 0x11, 0x13, 0x15, 0x16, 0x17, 0x18, 0x19, 0x1B, 0x1D, 0x1E, 0x1F,
      0xE1, 0xE2, 0xE3, 0xE4, 0xE5, 0xE6, 0xE7, 0xEA, 0xEC, 0xED, 0xEE, 0xEF,
      0xF9, 0xFB, 0xFC, 0xFD, 0xFE, 0xFF]

/-- The length of an admitted instruction is known from its opcode byte, whatever follows it: two bytes for high nibble
0x1, 0x4, 0x5, 0x7 and for high nibble 0x2 with bit 0 clear, one byte otherwise (R50, R65). Which nibbles these are rests on
the opcode layout and on the two-byte length of `JCN` and `ISZ`, which are the spec's general knowledge (GK1, GK5, PRESUMED,
log entry 5). -/
def Obligations.LengthKnownFromOpcodeByte : Prop :=
  ∀ (o : Byte) (rest : List Byte) (i : Instr) (left : List Byte), decodeBytes (o :: rest) = .ok (i, left) →
    opcodeLength o = some i.length ∧ (o :: rest).length = left.length + i.length ∧
      (i.length = 2 ↔ o.toNat / 16 ∈ [0x1, 0x4, 0x5, 0x7] ∨ (o.toNat / 16 = 0x2 ∧ o.toNat % 2 = 0)) ∧
      (i.length = 1 ∨ i.length = 2)

/-- Words written out bit by bit from the encoding lines of the rules decode to the instruction they stand for. The
layouts other than FIM, SRC, FIN, JIN, LDM, INC and BBL are the spec's general knowledge (log entry 5). -/
def Obligations.WrittenWordsDecode : Prop :=
  decodeOpcode 0b11010101#8 = .oneByte (.ldm 5#4) ∧ decodeOpcode 0b00110101#8 = .oneByte (.jin 4) ∧
    decodeBytes [0b00100010#8, 0b01011010#8] = .ok (.fim 2 0x5A#8, []) ∧
    decodeOpcode 0b10011010#8 = .oneByte (.sub 10) ∧ decodeOpcode 0b11110110#8 = .oneByte .rar ∧
    decodeBytes [0b01010101#8, 0b11110000#8] = .ok (.jms 0x5F0, []) ∧
    decodeBytes [0b00011010#8, 0b00001101#8] = .ok (.jcnC0 0x0D#8, []) ∧
    decodeOpcode 0b00101111#8 = .oneByte (.src 14) ∧ decodeOpcode 0b11101000#8 = .oneByte .sbm

/-- Decoding the bytes of a well-formed instruction gives it back, and leaves what follows. -/
def Obligations.DecodeOfEncode : Prop :=
  ∀ (i : Instr) (rest : List Byte), i.wellFormed = true → decodeBytes (encode i ++ rest) = .ok (i, rest)

/-- Encoding what was decoded gives the bytes back: each instruction has one encoding and every bit is read. -/
def Obligations.EncodeOfDecode : Prop :=
  ∀ (bs : List Byte) (i : Instr) (rest : List Byte), decodeBytes bs = .ok (i, rest) →
    i.wellFormed = true ∧ encode i ++ rest = bs

/-- Assembling the line that stands for a well-formed instruction gives the instruction (R66, notation of spec decision
D22, log entry 22). -/
def Obligations.AssembleOfToAsm : Prop :=
  ∀ (pc : Addr) (i : Instr), i.wellFormed = true → assemble pc (toAsm pc i) = some i

/-! ### The step -/

/-- A step of a running core is `exec` of the instruction whose bytes stand at `pc` and `pc + 1` (R68, R69). -/
def Obligations.StepRunsDecodedInstruction : Prop :=
  ∀ (s : State) (i : Instr) (rest : List Byte), s.Running →
    decodeBytes [s.progRead s.pc, s.progRead (s.pc + 1#12)] = .ok (i, rest) → step s = exec i s

/-- A step of a running core at an illegal opcode byte writes nothing but the status (R53, R131; spec decision D10, log
entries 1 and 13). -/
def Obligations.IllegalOpcodeStopsTheCore : Prop :=
  ∀ s : State, s.Running → decodeOpcode (s.progRead s.pc) = .illegal →
    step s = .next { s with status := .faulted .illegalOpcode }

/-- R3 with R131: a step of a running core either completes, running and with its cost added, or takes a fault and
changes nothing but the status; the decoder never leads to `PreconditionViolation`. That a fault is a next state is log
entry 1. -/
def Obligations.StepIsAtomicAndTotal : Prop :=
  ∀ s : State, s.Running → ∃ t, step s = .next t ∧
    ((∃ i, s.fetchDecode = some i ∧ i.wellFormed = true ∧ t.status = .running ∧ t.cycles = s.cycles + i.cost) ∨
      ∃ k, k ≠ .preconditionViolation ∧ t = { s with status := .faulted k })

/-- When a step faults, and with which kind (Table G-1, R130; order R132, spec decision D11, log entry 14). -/
def Obligations.FaultOfAStepHasItsCause : Prop :=
  ∀ (s t : State) (k : Fault), s.Running → step s = .next t →
    (t.status = .faulted k ↔
      (k = .illegalOpcode ∧ decodeOpcode (s.progRead s.pc) = .illegal) ∨
        (k = .stackOverflow ∧ (∃ a, s.fetchDecode = some (.jms a)) ∧ 3 ≤ s.stk.length) ∨
          (k = .stackUnderflow ∧ (∃ d, s.fetchDecode = some (.bbl d)) ∧ s.stk = []))

/-- What the host reads after a fault: the kind's code, the address of the faulting instruction, its bytes (R130; spec
decisions D10, D30, log entries 13 and 20). -/
def Obligations.FaultReportNamesTheInstruction : Prop :=
  ∀ (s t : State) (k : Fault), s.Running → step s = .next t → t.status = .faulted k →
    t.faultReport = some
      ((match k with | .stackOverflow => 0 | .stackUnderflow => 1 | .preconditionViolation => 2 | .illegalOpcode => 3),
        s.pc,
        if k = .stackOverflow then [s.progRead s.pc, s.progRead (s.pc + 1#12)] else [s.progRead s.pc])

/-- A fault is sticky (R133): whatever the host asks but a reset, the state stays as it is and a step request returns the
same fault. That the fault is sticky is the spec's decision D10 (log entry 13), that a halt request leaves a faulted core as
it is D18, and that a reset after a fault makes the core run again D24 (both log entry 18). -/
def Obligations.FaultIsStickyUntilReset : Prop :=
  ∀ (s : State) (k : Fault) (qs : List Request), s.status = .faulted k → (∀ img, Request.reset img ∉ qs) →
    serveAll qs s = s ∧ serve .step (serveAll qs s) = (s, .fault k) ∧
      ∀ img, img.length ≤ 4096 → (serve (.reset img) (serveAll qs s)).1.Running

/-- A halted core takes no step until a reset and keeps its whole state (R140, R152, R154; spec decision D18, log entry
18). -/
def Obligations.HaltedCoreKeepsItsState : Prop :=
  ∀ (s : State) (qs : List Request), s.status = .halted → (∀ img, Request.reset img ∉ qs) →
    serveAll qs s = s ∧ serve .step (serveAll qs s) = (s, .halted)

/-- Which outcome of the host's interface a stopped core answers a step with (R68, R152; the outcomes are the model's choice,
log entries 1 and 2). -/
def Obligations.StoppedCoreAnswersItsStatus : Prop :=
  ∀ s : State, (∀ k, s.status = .faulted k → step s = .fault k) ∧ (s.status = .halted → step s = .refused .halted)

/-- The reply to a step of a running core is the amount `cycles` grew by, 8 or 16, or the fault kind (R71, R152; a faulting
step adds nothing, spec decision D10). -/
def Obligations.StepReplyIsCostOrFault : Prop :=
  ∀ s : State, s.Running →
    (∃ n, (n = 8 ∨ n = 16) ∧ (requestStep s).2 = .cost n ∧ (requestStep s).1.status = .running ∧
        (requestStep s).1.cycles = s.cycles + n) ∨
      ∃ k, (requestStep s).2 = .fault k ∧ (requestStep s).1 = { s with status := .faulted k }

/-! ### Reset and the host -/

/-- A reset with an image of at most 4096 bytes puts every field at its reset value and loads the program store; a longer
image is refused and changes nothing (R19, R150, R151; spec decisions D13 and D24, log entries 16 and 18). -/
def Obligations.ResetLoadsImageAndClears : Prop :=
  ∀ (img : List Byte) (s : State),
    (img.length ≤ 4096 → ∃ t, serve (.reset img) s = (t, .done) ∧ (∀ r, t.reg r = 0#4) ∧ t.acc = 0#4 ∧ t.cy = 0#1 ∧
      t.pc = 0#12 ∧ t.dp = 0#8 ∧ t.stk = [] ∧ t.cycles = 0 ∧ t.status = .running ∧ (∀ a, t.memRead a = 0#4) ∧
      ∀ a, t.progRead a = (img[a.toNat]?).getD 0#8) ∧
    (4096 < img.length → serve (.reset img) s = (s, .resetRefused))

/-- A halt request makes a running core halted and changes nothing else; a faulted or halted core is left as it is (R154;
spec decision D18, log entry 18). -/
def Obligations.HaltRequestOnlySetsStatus : Prop :=
  ∀ s : State, (serve .halt s).1 = { s with status := if s.status = .running then .halted else s.status }

/-- Only a reset sets `Running` (R18). -/
def Obligations.OnlyResetSetsRunning : Prop :=
  ∀ (s : State) (q : Request), ¬ s.Running → (serve q s).1.Running → ∃ img, q = .reset img

/-- The state after reset meets the invariant and is `Running`. That an empty store is canonical is said of the model's own
form of a memory (DESIGN CHOICE, log entry 19); that reset leaves `Running` is the spec's decision D24 (log entry 18). -/
def Obligations.ResetMeetsInvariant : Prop := State.reset.Inv ∧ State.reset.Running

/-- Every step keeps the invariant: both stores stay inside their sizes (R30, R33) and in canonical form, and `depth <= 3`
(R16). The canonical form (rising addresses, no entry 0) is the model's own, not the spec's (DESIGN CHOICE, log entry 19). -/
def Obligations.StepKeepsInvariant : Prop :=
  ∀ s t : State, s.Inv → step s = .next t → t.Inv

/-- Whatever the host asks from reset on, whichever images it loads, the invariant holds: both stores inside their sizes (R30,
R33) and in canonical form, and `depth <= 3` (R16). The canonical form is the model's own, not the spec's (DESIGN CHOICE, log
entry 19). -/
def Obligations.EveryReachableStateMeetsInvariant : Prop :=
  ∀ qs : List Request, (serveAll qs State.reset).Inv

/-- R44: the program store cannot change while the core runs: no instruction, `WRM` among them, writes a byte of it, and no
request but a reset does, and the fetch never reads the data store that `WRM` writes. -/
def Obligations.ProgramStoreNeverChangesWhileRunning : Prop :=
  (∀ (i : Instr) (s t : State), exec i s = .next t → ∀ a, t.progRead a = s.progRead a) ∧
    (∀ (q : Request) (s : State), (∀ img, q ≠ .reset img) → ∀ a, (serve q s).1.progRead a = s.progRead a) ∧
      ∀ (s : State) (m : Memory 4), (s.setRam m).fetchDecode = s.fetchDecode

/-! ### What any instruction leaves unchanged (frame, spec decision D9, log entry 12) -/

/-- Every instruction, on every state, answers a next state (R3), and an ill-formed term's is `PreconditionViolation` with
nothing else written (R130, R131, R132; spec decisions D10, D11, log entries 3 and 14). -/
def Obligations.EveryTermHasANextState : Prop :=
  ∀ (i : Instr) (s : State), (∃ t, exec i s = .next t) ∧
    (i.wellFormed = false → exec i s = .next { s with status := .faulted .preconditionViolation })

/-- A register other than those R10 says the instruction writes is unchanged. -/
def Obligations.RegistersChangeOnlyByTheirWriters : Prop :=
  ∀ (i : Instr) (s t : State), exec i s = .next t → ∀ k, k ∉ regWrites i → t.reg k = s.reg k

/-- `A` and `CY` change only by the writers that R12 and R13 list. -/
def Obligations.AccAndCarryChangeOnlyByTheirWriters : Prop :=
  ∀ (i : Instr) (s t : State), exec i s = .next t →
    (writesAcc i = false → t.acc = s.acc) ∧ (writesCy i = false → t.cy = s.cy)

/-- `DP` changes only by `SRC` (R15), the call stack only by `JMS` and `BBL` (R16): a `JMS` that pushes keeps the older
entries, a `BBL` that pops removes one. -/
def Obligations.DpAndStackChangeOnlyByTheirWriters : Prop :=
  ∀ (i : Instr) (s t : State), exec i s = .next t →
    (writesDp i = false → t.dp = s.dp) ∧ (writesStk i = false → t.stk = s.stk) ∧
      (t.stk = s.stk ∨ (∃ a v, i = .jms a ∧ t.stk = s.stk ++ [v]) ∨ ∃ d v, i = .bbl d ∧ s.stk = t.stk ++ [v])

/-- Every data-store entry but the one `WRM` stores to, `RAM[DP]`, reads as before (R35; spec decision D17, log entry 17), in
every state whose stores are canonical (log entry 19). -/
def Obligations.DataStoreChangesOnlyByWrmAtDp : Prop :=
  ∀ (i : Instr) (s t : State), s.Inv → exec i s = .next t →
    ∀ a, (i = .wrm → a ≠ s.dp) → t.memRead a = s.memRead a

/-- `pc`: an instruction that is no control transfer advances it by its length modulo 4096, and a completed step of any
instruction adds its cost to `cycles` and leaves the status; a faulting one changes neither (R70, R71, R131; spec decisions
D6, D10, log entries 8 and 13). -/
def Obligations.PcAndCyclesAtTheEndOfAStep : Prop :=
  ∀ (i : Instr) (s t : State), exec i s = .next t →
    (t.status = s.status ∧ t.cycles = s.cycles + i.cost ∧
        (mayAssignPc i = false → t.pc.toNat = (s.pc.toNat + i.length) % 4096)) ∨
      (∃ k, t.status = .faulted k) ∧ t.cycles = s.cycles ∧ t.pc = s.pc

/-! ### Memory ports -/

/-- A step request reads the program store at most twice, and a step of `FIN` reads its opcode byte and then the address
held in pair 0, in the first 256 bytes (R32, R84; transaction level, spec decision D15, log entry 24). -/
def Obligations.AtMostTwoProgramReads : Prop :=
  ∀ s : State, (progReads s).length ≤ 2 ∧
    ∀ p, s.Running → s.fetchDecode = some (.fin p) →
      progReads s = [s.pc, BitVec.ofNat 12 ((s.reg 0).toNat * 16 + (s.reg 1).toNat)]

/-- A step depends on the program store only through the bytes its port reads. -/
def Obligations.StepSeesOnlyItsProgramReads : Prop :=
  ∀ (s : State) (m : Memory 8), (∀ a, a ∈ progReads s → m.read a.toNat = s.rom.read a.toNat) →
    step (s.setRom m) =
      match step s with
      | .next t => .next (t.setRom m)
      | .fault k => .fault k
      | .refused r => .refused r

/-- A step depends on the data store only through its one data read, and writes only where its one data write says (R36). -/
def Obligations.StepSeesOnlyItsDataRead : Prop :=
  ∀ (s : State) (m : Memory 4), (∀ a, stepDataAccess s = .read a → m.read a.toNat = s.ram.read a.toNat) →
    step (s.setRam m) =
      match step s with
      | .next t => .next (t.setRam (match stepDataAccess s with | .write a v => m.write a.toNat v | .read _ => m | .none => m))
      | .fault k => .fault k
      | .refused r => .refused r

/-! ### The ALU -/

/-- R90: the 4-bit add with carry, over all 512 operands. -/
def Obligations.AddWithCarryExact : Prop :=
  ∀ (a b : Nibble) (c : Bit), (add4 a b c).1.toNat = (a.toNat + b.toNat + c.toNat) % 16 ∧
    ((add4 a b c).2 = 1#1 ↔ 15 < a.toNat + b.toNat + c.toNat)

/-- The 4-bit subtract as exact arithmetic: the result is `(a - b - (1 - cin)) mod 16` and the carry out is 1 exactly when
that difference is not negative. The polarity is the spec's decision D8 (log entry 11), and the arithmetic form is the
spec's own derivation in R91. -/
def Obligations.SubWithBorrowExact : Prop :=
  ∀ (a b : Nibble) (c : Bit),
    ((sub4 a b c).1.toNat : Int) = ((a.toNat : Int) - b.toNat - (1 - c.toNat)) % 16 ∧
      ((sub4 a b c).2 = 1#1 ↔ (0 : Int) ≤ (a.toNat : Int) - b.toNat - (1 - c.toNat))

/-! ### Register pairs -/

/-- R11: a pair is the 8-bit value with its high nibble in the even register, a write of a pair puts the nibbles back, the
decoder's pair indexes are even and in 0..14, and an odd index in a term built outside the decoder raises
`PreconditionViolation` (as a next state, log entry 1). -/
def Obligations.PairHoldsHighNibbleInEvenRegister : Prop :=
  (∀ (s : State) (p : Nat) (b : Byte), p < 16 → p % 2 = 0 →
    (s.pair p).toNat = (s.reg p).toNat * 16 + (s.reg (p + 1)).toNat ∧
      ((s.setPair p b).reg p).toNat = b.toNat / 16 ∧ ((s.setPair p b).reg (p + 1)).toNat = b.toNat % 16 ∧
      (s.setPair p b).pair p = b) ∧
  (∀ (bs rest : List Byte) (p : Nat) (d : Byte),
    decodeBytes bs = .ok (.fim p d, rest) ∨ decodeBytes bs = .ok (.fin p, rest) ∨ decodeBytes bs = .ok (.jin p, rest) ∨
      decodeBytes bs = .ok (.src p, rest) → p < 16 ∧ p % 2 = 0) ∧
  ∀ (s : State) (p : Nat) (d : Byte), p % 2 = 1 → ∀ i ∈ [Instr.fim p d, .fin p, .jin p, .src p],
    exec i s = .next { s with status := .faulted .preconditionViolation }

/-! ### Load and move -/

/-- `LDM` sets `A` to its immediate and `LD` sets `A` to the register (R80, R81); both take one byte and 8 cycles and leave
everything else unchanged (spec decisions D5, D9). -/
def Obligations.LoadsSetTheAccumulator : Prop :=
  (∀ (d : Nibble) (s : State),
    exec (.ldm d) s = .next { s with acc := d, pc := s.pc + 1#12, cycles := s.cycles + 8 }) ∧
  ∀ (r : Nat) (s : State), r < 16 →
    exec (.ld r) s = .next { s with acc := s.reg r, pc := s.pc + 1#12, cycles := s.cycles + 8 }

/-- `XCH` (R82): the accumulator and the register are swapped. -/
def Obligations.XchSwapsAccAndRegister : Prop :=
  ∀ (r : Nat) (s : State), r < 16 → ∃ t, exec (.xch r) s = .next t ∧ t.acc = s.reg r ∧ t.reg r = s.acc ∧
    (∀ k, k ≠ r → t.reg k = s.reg k) ∧
    t = { s with acc := t.acc, regs := t.regs, pc := s.pc + 1#12, cycles := s.cycles + 8 }

/-- `FIM` (R11, R60, R83): high nibble to the even register, low nibble to the odd one. -/
def Obligations.FimLoadsThePair : Prop :=
  ∀ (p : Nat) (b : Byte) (s : State), p < 16 → p % 2 = 0 → ∃ t, exec (.fim p b) s = .next t ∧
    (t.reg p).toNat = b.toNat / 16 ∧ (t.reg (p + 1)).toNat = b.toNat % 16 ∧
    (∀ k, k ≠ p → k ≠ p + 1 → t.reg k = s.reg k) ∧
    t = { s with regs := t.regs, pc := s.pc + 2#12, cycles := s.cycles + 16 }

/-- `FIN` (R84): the byte of the program store at `(x[0] << 4) | x[1]`, read before the pair is written, goes into the pair
as `FIM` would put it. -/
def Obligations.FinLoadsThePairFromPageZero : Prop :=
  ∀ (p : Nat) (s : State), p < 16 → p % 2 = 0 → ∃ t, exec (.fin p) s = .next t ∧
    (t.reg p).toNat = (s.progRead (BitVec.ofNat 12 ((s.reg 0).toNat * 16 + (s.reg 1).toNat))).toNat / 16 ∧
    (t.reg (p + 1)).toNat = (s.progRead (BitVec.ofNat 12 ((s.reg 0).toNat * 16 + (s.reg 1).toNat))).toNat % 16 ∧
    (∀ k, k ≠ p → k ≠ p + 1 → t.reg k = s.reg k) ∧
    t = { s with regs := t.regs, pc := s.pc + 1#12, cycles := s.cycles + 8 }

/-- `LDM v; XCH r; LD r` leaves `A = v` and `x[r] = v` (95_test_vectors.md L1-2, property 1). -/
def Obligations.LoadExchangeLoadRestores : Prop :=
  ∀ (v : Nibble) (r : Nat) (s : State), r < 16 → ∃ t, execAll [.ldm v, .xch r, .ld r] s = .next t ∧
    t.acc = v ∧ t.reg r = v ∧ (∀ k, k ≠ r → t.reg k = s.reg k) ∧
    t = { s with acc := t.acc, regs := t.regs, pc := s.pc + 3#12, cycles := s.cycles + 24 }

/-! ### Arithmetic -/

/-- `ADD` adds the register, `ADM` the data-store entry at `DP`, to `A` with the carry: `A` is the sum modulo 16 and `CY` is 1
exactly when it exceeds 15 (R90, R92, R123); everything else but `pc` and `cycles` is unchanged (spec decisions D5, D9). -/
def Obligations.AddsAccumulateWithCarry : Prop :=
  (∀ (r : Nat) (s : State), r < 16 → exec (.add r) s = .next
    { s with acc := BitVec.ofNat 4 (s.acc.toNat + (s.reg r).toNat + s.cy.toNat)
             cy := if 15 < s.acc.toNat + (s.reg r).toNat + s.cy.toNat then 1#1 else 0#1
             pc := s.pc + 1#12, cycles := s.cycles + 8 }) ∧
  ∀ s : State, exec .adm s = .next
    { s with acc := BitVec.ofNat 4 (s.acc.toNat + (s.memRead s.dp).toNat + s.cy.toNat)
             cy := if 15 < s.acc.toNat + (s.memRead s.dp).toNat + s.cy.toNat then 1#1 else 0#1
             pc := s.pc + 1#12, cycles := s.cycles + 8 }

/-- `SUB` subtracts the register, `SBM` the data-store entry at `DP`, from `A` with borrow `1 - CY`: `A` is the difference modulo
16 and `CY` is 1 exactly when it is not negative (R91, R93, R124; polarity: spec decision D8, log entry 11); everything else but
`pc` and `cycles` is unchanged (spec decisions D5, D9). -/
def Obligations.SubsSubtractWithBorrow : Prop :=
  (∀ (r : Nat) (s : State), r < 16 → exec (.sub r) s = .next
    { s with acc := BitVec.ofInt 4 ((s.acc.toNat : Int) - (s.reg r).toNat - (1 - s.cy.toNat))
             cy := if (0 : Int) ≤ (s.acc.toNat : Int) - (s.reg r).toNat - (1 - s.cy.toNat) then 1#1 else 0#1
             pc := s.pc + 1#12, cycles := s.cycles + 8 }) ∧
  ∀ s : State, exec .sbm s = .next
    { s with acc := BitVec.ofInt 4 ((s.acc.toNat : Int) - (s.memRead s.dp).toNat - (1 - s.cy.toNat))
             cy := if (0 : Int) ≤ (s.acc.toNat : Int) - (s.memRead s.dp).toNat - (1 - s.cy.toNat) then 1#1 else 0#1
             pc := s.pc + 1#12, cycles := s.cycles + 8 }

/-- `INC` (R94): the register grows by one modulo 16, `CY` is not touched. -/
def Obligations.IncWrapsTheRegister : Prop :=
  ∀ (r : Nat) (s : State), r < 16 → ∃ t, exec (.inc r) s = .next t ∧ (t.reg r).toNat = ((s.reg r).toNat + 1) % 16 ∧
    (∀ k, k ≠ r → t.reg k = s.reg k) ∧ t = { s with regs := t.regs, pc := s.pc + 1#12, cycles := s.cycles + 8 }

/-- `IAC` and `DAC` (R95, R96): `CY` is the carry out of `A + 1` (cleared without overflow: spec decision D7, log entry 10)
and 0 exactly on a borrow of `A - 1`. -/
def Obligations.IacAndDacCountTheAccumulator : Prop :=
  ∀ s : State,
    (∃ t, exec .iac s = .next t ∧ t.acc.toNat = (s.acc.toNat + 1) % 16 ∧ t.cy = (if s.acc = 15#4 then 1#1 else 0#1) ∧
      t = { s with acc := t.acc, cy := t.cy, pc := s.pc + 1#12, cycles := s.cycles + 8 }) ∧
    ∃ t, exec .dac s = .next t ∧ (t.acc.toNat : Int) = ((s.acc.toNat : Int) - 1) % 16 ∧
      t.cy = (if s.acc = 0#4 then 0#1 else 1#1) ∧
      t = { s with acc := t.acc, cy := t.cy, pc := s.pc + 1#12, cycles := s.cycles + 8 }

/-! ### Logic, carry and rotate -/

/-- `CLC` clears, `STC` sets and `CMC` complements `CY` (R100, R101, R102); everything else but `pc` and `cycles` is unchanged
(spec decisions D5, D9). -/
def Obligations.CarryInstructionsWriteOnlyCarry : Prop :=
  ∀ s : State, exec .clc s = .next { s with cy := 0#1, pc := s.pc + 1#12, cycles := s.cycles + 8 } ∧
    exec .stc s = .next { s with cy := 1#1, pc := s.pc + 1#12, cycles := s.cycles + 8 } ∧
    exec .cmc s = .next { s with cy := if s.cy = 1#1 then 0#1 else 1#1, pc := s.pc + 1#12, cycles := s.cycles + 8 }

/-- `CLB` clears `A` and `CY`, `TCC` moves `CY` into `A` and clears it, `CMA` complements the four bits of `A` and leaves `CY`
(R103, R107, R104); everything else but `pc` and `cycles` is unchanged (spec decisions D5, D9). -/
def Obligations.ClearTransmitAndComplement : Prop :=
  ∀ s : State, exec .clb s = .next { s with acc := 0#4, cy := 0#1, pc := s.pc + 1#12, cycles := s.cycles + 8 } ∧
    exec .tcc s = .next
      { s with acc := if s.cy = 1#1 then 1#4 else 0#4, cy := 0#1, pc := s.pc + 1#12, cycles := s.cycles + 8 } ∧
    exec .cma s = .next { s with acc := s.acc ^^^ 0xF#4, pc := s.pc + 1#12, cycles := s.cycles + 8 }

/-- `RAL` and `RAR` rotate the 5-bit value `{CY, A}` by one place (R105, R106). -/
def Obligations.RotatesMoveFiveBits : Prop :=
  ∀ s : State,
    (∃ t, exec .ral s = .next t ∧
      t.cy.toNat * 16 + t.acc.toNat = (2 * (s.cy.toNat * 16 + s.acc.toNat)) % 32 + s.cy.toNat ∧
      t = { s with acc := t.acc, cy := t.cy, pc := s.pc + 1#12, cycles := s.cycles + 8 }) ∧
    ∃ t, exec .rar s = .next t ∧
      t.cy.toNat * 16 + t.acc.toNat = (s.cy.toNat * 16 + s.acc.toNat) / 2 + 16 * (s.acc.toNat % 2) ∧
      t = { s with acc := t.acc, cy := t.cy, pc := s.pc + 1#12, cycles := s.cycles + 8 }

/-- Five `RAL`, or five `RAR`, restore `A` and `CY`; a `RAL` and a `RAR` undo each other (R105, R106,
95_test_vectors.md L1-2, property 5). -/
def Obligations.FiveRotatesAreTheIdentity : Prop :=
  ∀ s : State,
    execAll [.ral, .ral, .ral, .ral, .ral] s = .next { s with pc := s.pc + 5#12, cycles := s.cycles + 40 } ∧
      execAll [.rar, .rar, .rar, .rar, .rar] s = .next { s with pc := s.pc + 5#12, cycles := s.cycles + 40 } ∧
      execAll [.ral, .rar] s = .next { s with pc := s.pc + 2#12, cycles := s.cycles + 16 } ∧
      execAll [.rar, .ral] s = .next { s with pc := s.pc + 2#12, cycles := s.cycles + 16 }

/-! ### Control transfer -/

/-- `JUN` (R111) sets `pc` to its 12-bit address, `JIN` (R114) to the value of its pair in the page of the `JIN` itself; everything
else but `cycles` is unchanged (spec decision D9). -/
def Obligations.UnconditionalJumpsAssignPc : Prop :=
  (∀ (a : Nat) (s : State), a < 4096 →
    exec (.jun a) s = .next { s with pc := BitVec.ofNat 12 a, cycles := s.cycles + 16 }) ∧
  ∀ (p : Nat) (s : State), p < 16 → p % 2 = 0 → exec (.jin p) s = .next
    { s with pc := BitVec.ofNat 12 (s.pc.toNat / 256 * 256 + ((s.reg p).toNat * 16 + (s.reg (p + 1)).toNat))
             cycles := s.cycles + 8 }

/-- `JMS` (R112): on a stack with room, the address after the instruction is pushed and `pc` is the target. -/
def Obligations.JmsPushesTheReturnAddress : Prop :=
  ∀ (a : Nat) (s : State), a < 4096 → s.stk.length < 3 → exec (.jms a) s = .next
    { s with stk := s.stk ++ [BitVec.ofNat 12 ((s.pc.toNat + 2) % 4096)], pc := BitVec.ofNat 12 a
             cycles := s.cycles + 16 }

/-- `BBL` (R113): the last entry is popped into `pc` and `A` takes the immediate. -/
def Obligations.BblReturnsWithAValue : Prop :=
  ∀ (d : Nibble) (s : State) (k : List Addr) (v : Addr), s.stk = k ++ [v] →
    exec (.bbl d) s = .next { s with stk := k, pc := v, acc := d, cycles := s.cycles + 8 }

/-- `JMS` on a full stack and `BBL` on an empty one fault and write nothing but the status (R16, R112, R113, R131; spec
decision D10, log entries 1 and 13). -/
def Obligations.StackFaultsWriteOnlyStatus : Prop :=
  (∀ (a : Nat) (s : State), a < 4096 → 3 ≤ s.stk.length →
    exec (.jms a) s = .next { s with status := .faulted .stackOverflow }) ∧
  ∀ (d : Nibble) (s : State), s.stk = [] → exec (.bbl d) s = .next { s with status := .faulted .stackUnderflow }

/-- A `JMS` to a `BBL` and the `BBL` take two steps, which end after the `JMS` with `A` the immediate and the stack as before
(95_test_vectors.md L1-2, property 4). -/
def Obligations.CallThenReturnRestoresPc : Prop :=
  ∀ (s : State) (a : Nat) (v : Nibble), s.Running → s.stk.length < 3 → s.fetchDecode = some (.jms a) →
    decodeOpcode (s.progRead (BitVec.ofNat 12 a)) = .oneByte (.bbl v) →
    Host.Core.run Sys2Proof.core 2 s = .next { s with acc := v, pc := s.pc + 2#12, cycles := s.cycles + 24 }

/-- `ISZ` (R115): the register grows by one modulo 16, and the jump is taken when it becomes zero, to the page of the
opcode byte (spec decision D4, log entry 9). -/
def Obligations.IszIncrementsAndJumpsOnZero : Prop :=
  ∀ (r : Nat) (b : Byte) (s : State), r < 16 → ∃ t, exec (.isz r b) s = .next t ∧
    (t.reg r).toNat = ((s.reg r).toNat + 1) % 16 ∧ (∀ k, k ≠ r → t.reg k = s.reg k) ∧
    t.pc.toNat = (if (s.reg r).toNat = 15 then s.pc.toNat / 256 * 256 + b.toNat else (s.pc.toNat + 2) % 4096) ∧
    t = { s with regs := t.regs, pc := t.pc, cycles := s.cycles + 16 }

/-- `JCN` (R63, R116): the four conditions, each with its target in the page of the opcode byte (spec decision D4, log
entry 9) and 16 cycles taken or not. -/
def Obligations.JcnTestsItsCondition : Prop :=
  ∀ (b : Byte) (s : State),
    exec (.jcnC1 b) s = .next
      { s with pc := BitVec.ofNat 12 (if s.cy.toNat = 1 then s.pc.toNat / 256 * 256 + b.toNat else s.pc.toNat + 2)
               cycles := s.cycles + 16 } ∧
    exec (.jcnAZ b) s = .next
      { s with pc := BitVec.ofNat 12 (if s.acc.toNat = 0 then s.pc.toNat / 256 * 256 + b.toNat else s.pc.toNat + 2)
               cycles := s.cycles + 16 } ∧
    exec (.jcnC0 b) s = .next
      { s with pc := BitVec.ofNat 12 (if s.cy.toNat = 0 then s.pc.toNat / 256 * 256 + b.toNat else s.pc.toNat + 2)
               cycles := s.cycles + 16 } ∧
    exec (.jcnAN b) s = .next
      { s with pc := BitVec.ofNat 12 (if s.acc.toNat = 0 then s.pc.toNat + 2 else s.pc.toNat / 256 * 256 + b.toNat)
               cycles := s.cycles + 16 }

/-- A `JUN` to itself never advances: `n` steps add 16 cycles each and change nothing else (R70, R111, R156; the mark of spec
decision D6, log entry 8). -/
def Obligations.SelfJumpIdlesForever : Prop :=
  ∀ (s : State) (n : Nat), s.Running → s.fetchDecode = some (.jun s.pc.toNat) →
    Host.Core.run Sys2Proof.core n s = .next { s with cycles := s.cycles + 16 * n }

/-! ### Data memory -/

/-- `SRC` sets `DP` to the value of its pair (R11, R120), `RDM` sets `A` to the data-store entry at `DP` (R34, R122); everything
else but `pc` and `cycles` is unchanged (spec decisions D5, D9). -/
def Obligations.SrcAddressesAndRdmReads : Prop :=
  (∀ (p : Nat) (s : State), p < 16 → p % 2 = 0 → exec (.src p) s = .next
    { s with dp := BitVec.ofNat 8 ((s.reg p).toNat * 16 + (s.reg (p + 1)).toNat), pc := s.pc + 1#12
             cycles := s.cycles + 8 }) ∧
  ∀ s : State, exec .rdm s = .next { s with acc := s.memRead s.dp, pc := s.pc + 1#12, cycles := s.cycles + 8 }

/-- `WRM` (R35, R121): `RAM[DP]` takes the accumulator, every other entry reads as before (spec decision D17, log entry 17), in
every state whose stores are canonical (log entry 19). -/
def Obligations.WrmStoresAtDp : Prop :=
  ∀ s : State, s.Inv → ∃ t, exec .wrm s = .next t ∧ t.memRead s.dp = s.acc ∧
    (∀ a, a ≠ s.dp → t.memRead a = s.memRead a) ∧
    t = { s with ram := t.ram, pc := s.pc + 1#12, cycles := s.cycles + 8 }

/-- A `WRM`, then any instructions but `WRM` and `SRC`, none or many, then an `RDM`: the `RDM` gives the accumulator that was
stored back, whatever the instructions between did to `A` and to all other state, and writes nothing else but `pc` and
`cycles` (R42, R121, R122; only `SRC` writes `DP` and only `WRM` the data store, frame of spec decision D9, log entry 12). The
premise is a state whose stores are canonical (log entry 19). -/
def Obligations.StoreThenLoadReturnsTheValue : Prop :=
  ∀ (s : State) (between : List Instr), s.Inv → (∀ i ∈ between, i ≠ .wrm ∧ ∀ p, i ≠ .src p) →
    ∃ u, execAll (.wrm :: between) s = .next u ∧ u.dp = s.dp ∧ u.memRead s.dp = s.acc ∧
      execAll (.wrm :: between ++ [.rdm]) s =
        .next { u with acc := s.acc, pc := u.pc + 1#12, cycles := u.cycles + 8 }
end

