-- ==== Sys2Proof/Laws/State.lean ====
section
/-! SUPPORT. One lemma per field per update of State, each true by definition, so that no later proof unfolds a record
update; and the reads of a register, a pair or a memory entry through the updates that leave them alone. -/

namespace Sys2Proof.Machine

/-! ### setReg -/

@[simp] theorem State.setReg_regs (s : State) (r : Nat) (v : Nibble) : (s.setReg r v).regs = s.regs.setIfInBounds r v := rfl
@[simp] theorem State.setReg_acc (s : State) (r : Nat) (v : Nibble) : (s.setReg r v).acc = s.acc := rfl
@[simp] theorem State.setReg_cy (s : State) (r : Nat) (v : Nibble) : (s.setReg r v).cy = s.cy := rfl
@[simp] theorem State.setReg_pc (s : State) (r : Nat) (v : Nibble) : (s.setReg r v).pc = s.pc := rfl
@[simp] theorem State.setReg_dp (s : State) (r : Nat) (v : Nibble) : (s.setReg r v).dp = s.dp := rfl
@[simp] theorem State.setReg_stk (s : State) (r : Nat) (v : Nibble) : (s.setReg r v).stk = s.stk := rfl
@[simp] theorem State.setReg_cycles (s : State) (r : Nat) (v : Nibble) : (s.setReg r v).cycles = s.cycles := rfl
@[simp] theorem State.setReg_status (s : State) (r : Nat) (v : Nibble) : (s.setReg r v).status = s.status := rfl
@[simp] theorem State.setReg_rom (s : State) (r : Nat) (v : Nibble) : (s.setReg r v).rom = s.rom := rfl
@[simp] theorem State.setReg_ram (s : State) (r : Nat) (v : Nibble) : (s.setReg r v).ram = s.ram := rfl
@[simp] theorem State.setReg_progRead (s : State) (r : Nat) (v : Nibble) (k : Addr) : (s.setReg r v).progRead k = s.progRead k := rfl
@[simp] theorem State.setReg_memRead (s : State) (r : Nat) (v : Nibble) (k : Byte) : (s.setReg r v).memRead k = s.memRead k := rfl

/-! ### setPair -/

@[simp] theorem State.setPair_acc (s : State) (p : Nat) (b : Byte) : (s.setPair p b).acc = s.acc := rfl
@[simp] theorem State.setPair_cy (s : State) (p : Nat) (b : Byte) : (s.setPair p b).cy = s.cy := rfl
@[simp] theorem State.setPair_pc (s : State) (p : Nat) (b : Byte) : (s.setPair p b).pc = s.pc := rfl
@[simp] theorem State.setPair_dp (s : State) (p : Nat) (b : Byte) : (s.setPair p b).dp = s.dp := rfl
@[simp] theorem State.setPair_stk (s : State) (p : Nat) (b : Byte) : (s.setPair p b).stk = s.stk := rfl
@[simp] theorem State.setPair_cycles (s : State) (p : Nat) (b : Byte) : (s.setPair p b).cycles = s.cycles := rfl
@[simp] theorem State.setPair_status (s : State) (p : Nat) (b : Byte) : (s.setPair p b).status = s.status := rfl
@[simp] theorem State.setPair_rom (s : State) (p : Nat) (b : Byte) : (s.setPair p b).rom = s.rom := rfl
@[simp] theorem State.setPair_ram (s : State) (p : Nat) (b : Byte) : (s.setPair p b).ram = s.ram := rfl
@[simp] theorem State.setPair_progRead (s : State) (p : Nat) (b : Byte) (k : Addr) : (s.setPair p b).progRead k = s.progRead k := rfl
@[simp] theorem State.setPair_memRead (s : State) (p : Nat) (b : Byte) (k : Byte) : (s.setPair p b).memRead k = s.memRead k := rfl

/-! ### setAcc -/

@[simp] theorem State.setAcc_regs (s : State) (v : Nibble) : (s.setAcc v).regs = s.regs := rfl
@[simp] theorem State.setAcc_acc (s : State) (v : Nibble) : (s.setAcc v).acc = v := rfl
@[simp] theorem State.setAcc_cy (s : State) (v : Nibble) : (s.setAcc v).cy = s.cy := rfl
@[simp] theorem State.setAcc_pc (s : State) (v : Nibble) : (s.setAcc v).pc = s.pc := rfl
@[simp] theorem State.setAcc_dp (s : State) (v : Nibble) : (s.setAcc v).dp = s.dp := rfl
@[simp] theorem State.setAcc_stk (s : State) (v : Nibble) : (s.setAcc v).stk = s.stk := rfl
@[simp] theorem State.setAcc_cycles (s : State) (v : Nibble) : (s.setAcc v).cycles = s.cycles := rfl
@[simp] theorem State.setAcc_status (s : State) (v : Nibble) : (s.setAcc v).status = s.status := rfl
@[simp] theorem State.setAcc_rom (s : State) (v : Nibble) : (s.setAcc v).rom = s.rom := rfl
@[simp] theorem State.setAcc_ram (s : State) (v : Nibble) : (s.setAcc v).ram = s.ram := rfl
@[simp] theorem State.setAcc_reg (s : State) (v : Nibble) (k : Nat) : (s.setAcc v).reg k = s.reg k := rfl
@[simp] theorem State.setAcc_pair (s : State) (v : Nibble) (k : Nat) : (s.setAcc v).pair k = s.pair k := rfl
@[simp] theorem State.setAcc_progRead (s : State) (v : Nibble) (k : Addr) : (s.setAcc v).progRead k = s.progRead k := rfl
@[simp] theorem State.setAcc_memRead (s : State) (v : Nibble) (k : Byte) : (s.setAcc v).memRead k = s.memRead k := rfl

/-! ### setCy -/

@[simp] theorem State.setCy_regs (s : State) (c : Bit) : (s.setCy c).regs = s.regs := rfl
@[simp] theorem State.setCy_acc (s : State) (c : Bit) : (s.setCy c).acc = s.acc := rfl
@[simp] theorem State.setCy_cy (s : State) (c : Bit) : (s.setCy c).cy = c := rfl
@[simp] theorem State.setCy_pc (s : State) (c : Bit) : (s.setCy c).pc = s.pc := rfl
@[simp] theorem State.setCy_dp (s : State) (c : Bit) : (s.setCy c).dp = s.dp := rfl
@[simp] theorem State.setCy_stk (s : State) (c : Bit) : (s.setCy c).stk = s.stk := rfl
@[simp] theorem State.setCy_cycles (s : State) (c : Bit) : (s.setCy c).cycles = s.cycles := rfl
@[simp] theorem State.setCy_status (s : State) (c : Bit) : (s.setCy c).status = s.status := rfl
@[simp] theorem State.setCy_rom (s : State) (c : Bit) : (s.setCy c).rom = s.rom := rfl
@[simp] theorem State.setCy_ram (s : State) (c : Bit) : (s.setCy c).ram = s.ram := rfl
@[simp] theorem State.setCy_reg (s : State) (c : Bit) (k : Nat) : (s.setCy c).reg k = s.reg k := rfl
@[simp] theorem State.setCy_pair (s : State) (c : Bit) (k : Nat) : (s.setCy c).pair k = s.pair k := rfl
@[simp] theorem State.setCy_progRead (s : State) (c : Bit) (k : Addr) : (s.setCy c).progRead k = s.progRead k := rfl
@[simp] theorem State.setCy_memRead (s : State) (c : Bit) (k : Byte) : (s.setCy c).memRead k = s.memRead k := rfl

/-! ### setAccCy -/

@[simp] theorem State.setAccCy_regs (s : State) (r : Nibble × Bit) : (s.setAccCy r).regs = s.regs := rfl
@[simp] theorem State.setAccCy_acc (s : State) (r : Nibble × Bit) : (s.setAccCy r).acc = r.1 := rfl
@[simp] theorem State.setAccCy_cy (s : State) (r : Nibble × Bit) : (s.setAccCy r).cy = r.2 := rfl
@[simp] theorem State.setAccCy_pc (s : State) (r : Nibble × Bit) : (s.setAccCy r).pc = s.pc := rfl
@[simp] theorem State.setAccCy_dp (s : State) (r : Nibble × Bit) : (s.setAccCy r).dp = s.dp := rfl
@[simp] theorem State.setAccCy_stk (s : State) (r : Nibble × Bit) : (s.setAccCy r).stk = s.stk := rfl
@[simp] theorem State.setAccCy_cycles (s : State) (r : Nibble × Bit) : (s.setAccCy r).cycles = s.cycles := rfl
@[simp] theorem State.setAccCy_status (s : State) (r : Nibble × Bit) : (s.setAccCy r).status = s.status := rfl
@[simp] theorem State.setAccCy_rom (s : State) (r : Nibble × Bit) : (s.setAccCy r).rom = s.rom := rfl
@[simp] theorem State.setAccCy_ram (s : State) (r : Nibble × Bit) : (s.setAccCy r).ram = s.ram := rfl
@[simp] theorem State.setAccCy_reg (s : State) (r : Nibble × Bit) (k : Nat) : (s.setAccCy r).reg k = s.reg k := rfl
@[simp] theorem State.setAccCy_pair (s : State) (r : Nibble × Bit) (k : Nat) : (s.setAccCy r).pair k = s.pair k := rfl
@[simp] theorem State.setAccCy_progRead (s : State) (r : Nibble × Bit) (k : Addr) : (s.setAccCy r).progRead k = s.progRead k := rfl
@[simp] theorem State.setAccCy_memRead (s : State) (r : Nibble × Bit) (k : Byte) : (s.setAccCy r).memRead k = s.memRead k := rfl

/-! ### setDp -/

@[simp] theorem State.setDp_regs (s : State) (b : Byte) : (s.setDp b).regs = s.regs := rfl
@[simp] theorem State.setDp_acc (s : State) (b : Byte) : (s.setDp b).acc = s.acc := rfl
@[simp] theorem State.setDp_cy (s : State) (b : Byte) : (s.setDp b).cy = s.cy := rfl
@[simp] theorem State.setDp_pc (s : State) (b : Byte) : (s.setDp b).pc = s.pc := rfl
@[simp] theorem State.setDp_dp (s : State) (b : Byte) : (s.setDp b).dp = b := rfl
@[simp] theorem State.setDp_stk (s : State) (b : Byte) : (s.setDp b).stk = s.stk := rfl
@[simp] theorem State.setDp_cycles (s : State) (b : Byte) : (s.setDp b).cycles = s.cycles := rfl
@[simp] theorem State.setDp_status (s : State) (b : Byte) : (s.setDp b).status = s.status := rfl
@[simp] theorem State.setDp_rom (s : State) (b : Byte) : (s.setDp b).rom = s.rom := rfl
@[simp] theorem State.setDp_ram (s : State) (b : Byte) : (s.setDp b).ram = s.ram := rfl
@[simp] theorem State.setDp_reg (s : State) (b : Byte) (k : Nat) : (s.setDp b).reg k = s.reg k := rfl
@[simp] theorem State.setDp_pair (s : State) (b : Byte) (k : Nat) : (s.setDp b).pair k = s.pair k := rfl
@[simp] theorem State.setDp_progRead (s : State) (b : Byte) (k : Addr) : (s.setDp b).progRead k = s.progRead k := rfl
@[simp] theorem State.setDp_memRead (s : State) (b : Byte) (k : Byte) : (s.setDp b).memRead k = s.memRead k := rfl

/-! ### setStk -/

@[simp] theorem State.setStk_regs (s : State) (l : List Addr) : (s.setStk l).regs = s.regs := rfl
@[simp] theorem State.setStk_acc (s : State) (l : List Addr) : (s.setStk l).acc = s.acc := rfl
@[simp] theorem State.setStk_cy (s : State) (l : List Addr) : (s.setStk l).cy = s.cy := rfl
@[simp] theorem State.setStk_pc (s : State) (l : List Addr) : (s.setStk l).pc = s.pc := rfl
@[simp] theorem State.setStk_dp (s : State) (l : List Addr) : (s.setStk l).dp = s.dp := rfl
@[simp] theorem State.setStk_stk (s : State) (l : List Addr) : (s.setStk l).stk = l := rfl
@[simp] theorem State.setStk_cycles (s : State) (l : List Addr) : (s.setStk l).cycles = s.cycles := rfl
@[simp] theorem State.setStk_status (s : State) (l : List Addr) : (s.setStk l).status = s.status := rfl
@[simp] theorem State.setStk_rom (s : State) (l : List Addr) : (s.setStk l).rom = s.rom := rfl
@[simp] theorem State.setStk_ram (s : State) (l : List Addr) : (s.setStk l).ram = s.ram := rfl
@[simp] theorem State.setStk_reg (s : State) (l : List Addr) (k : Nat) : (s.setStk l).reg k = s.reg k := rfl
@[simp] theorem State.setStk_pair (s : State) (l : List Addr) (k : Nat) : (s.setStk l).pair k = s.pair k := rfl
@[simp] theorem State.setStk_progRead (s : State) (l : List Addr) (k : Addr) : (s.setStk l).progRead k = s.progRead k := rfl
@[simp] theorem State.setStk_memRead (s : State) (l : List Addr) (k : Byte) : (s.setStk l).memRead k = s.memRead k := rfl

/-! ### setStatus -/

@[simp] theorem State.setStatus_regs (s : State) (v : Status) : (s.setStatus v).regs = s.regs := rfl
@[simp] theorem State.setStatus_acc (s : State) (v : Status) : (s.setStatus v).acc = s.acc := rfl
@[simp] theorem State.setStatus_cy (s : State) (v : Status) : (s.setStatus v).cy = s.cy := rfl
@[simp] theorem State.setStatus_pc (s : State) (v : Status) : (s.setStatus v).pc = s.pc := rfl
@[simp] theorem State.setStatus_dp (s : State) (v : Status) : (s.setStatus v).dp = s.dp := rfl
@[simp] theorem State.setStatus_stk (s : State) (v : Status) : (s.setStatus v).stk = s.stk := rfl
@[simp] theorem State.setStatus_cycles (s : State) (v : Status) : (s.setStatus v).cycles = s.cycles := rfl
@[simp] theorem State.setStatus_status (s : State) (v : Status) : (s.setStatus v).status = v := rfl
@[simp] theorem State.setStatus_rom (s : State) (v : Status) : (s.setStatus v).rom = s.rom := rfl
@[simp] theorem State.setStatus_ram (s : State) (v : Status) : (s.setStatus v).ram = s.ram := rfl
@[simp] theorem State.setStatus_reg (s : State) (v : Status) (k : Nat) : (s.setStatus v).reg k = s.reg k := rfl
@[simp] theorem State.setStatus_pair (s : State) (v : Status) (k : Nat) : (s.setStatus v).pair k = s.pair k := rfl
@[simp] theorem State.setStatus_progRead (s : State) (v : Status) (k : Addr) : (s.setStatus v).progRead k = s.progRead k := rfl
@[simp] theorem State.setStatus_memRead (s : State) (v : Status) (k : Byte) : (s.setStatus v).memRead k = s.memRead k := rfl

/-! ### setRom -/

@[simp] theorem State.setRom_regs (s : State) (m : Memory 8) : (s.setRom m).regs = s.regs := rfl
@[simp] theorem State.setRom_acc (s : State) (m : Memory 8) : (s.setRom m).acc = s.acc := rfl
@[simp] theorem State.setRom_cy (s : State) (m : Memory 8) : (s.setRom m).cy = s.cy := rfl
@[simp] theorem State.setRom_pc (s : State) (m : Memory 8) : (s.setRom m).pc = s.pc := rfl
@[simp] theorem State.setRom_dp (s : State) (m : Memory 8) : (s.setRom m).dp = s.dp := rfl
@[simp] theorem State.setRom_stk (s : State) (m : Memory 8) : (s.setRom m).stk = s.stk := rfl
@[simp] theorem State.setRom_cycles (s : State) (m : Memory 8) : (s.setRom m).cycles = s.cycles := rfl
@[simp] theorem State.setRom_status (s : State) (m : Memory 8) : (s.setRom m).status = s.status := rfl
@[simp] theorem State.setRom_rom (s : State) (m : Memory 8) : (s.setRom m).rom = m := rfl
@[simp] theorem State.setRom_ram (s : State) (m : Memory 8) : (s.setRom m).ram = s.ram := rfl
@[simp] theorem State.setRom_reg (s : State) (m : Memory 8) (k : Nat) : (s.setRom m).reg k = s.reg k := rfl
@[simp] theorem State.setRom_pair (s : State) (m : Memory 8) (k : Nat) : (s.setRom m).pair k = s.pair k := rfl
@[simp] theorem State.setRom_memRead (s : State) (m : Memory 8) (k : Byte) : (s.setRom m).memRead k = s.memRead k := rfl

/-! ### setRam -/

@[simp] theorem State.setRam_regs (s : State) (m : Memory 4) : (s.setRam m).regs = s.regs := rfl
@[simp] theorem State.setRam_acc (s : State) (m : Memory 4) : (s.setRam m).acc = s.acc := rfl
@[simp] theorem State.setRam_cy (s : State) (m : Memory 4) : (s.setRam m).cy = s.cy := rfl
@[simp] theorem State.setRam_pc (s : State) (m : Memory 4) : (s.setRam m).pc = s.pc := rfl
@[simp] theorem State.setRam_dp (s : State) (m : Memory 4) : (s.setRam m).dp = s.dp := rfl
@[simp] theorem State.setRam_stk (s : State) (m : Memory 4) : (s.setRam m).stk = s.stk := rfl
@[simp] theorem State.setRam_cycles (s : State) (m : Memory 4) : (s.setRam m).cycles = s.cycles := rfl
@[simp] theorem State.setRam_status (s : State) (m : Memory 4) : (s.setRam m).status = s.status := rfl
@[simp] theorem State.setRam_rom (s : State) (m : Memory 4) : (s.setRam m).rom = s.rom := rfl
@[simp] theorem State.setRam_ram (s : State) (m : Memory 4) : (s.setRam m).ram = m := rfl
@[simp] theorem State.setRam_reg (s : State) (m : Memory 4) (k : Nat) : (s.setRam m).reg k = s.reg k := rfl
@[simp] theorem State.setRam_pair (s : State) (m : Memory 4) (k : Nat) : (s.setRam m).pair k = s.pair k := rfl
@[simp] theorem State.setRam_progRead (s : State) (m : Memory 4) (k : Addr) : (s.setRam m).progRead k = s.progRead k := rfl

/-! ### memWrite -/

@[simp] theorem State.memWrite_regs (s : State) (a : Byte) (v : Nibble) : (s.memWrite a v).regs = s.regs := rfl
@[simp] theorem State.memWrite_acc (s : State) (a : Byte) (v : Nibble) : (s.memWrite a v).acc = s.acc := rfl
@[simp] theorem State.memWrite_cy (s : State) (a : Byte) (v : Nibble) : (s.memWrite a v).cy = s.cy := rfl
@[simp] theorem State.memWrite_pc (s : State) (a : Byte) (v : Nibble) : (s.memWrite a v).pc = s.pc := rfl
@[simp] theorem State.memWrite_dp (s : State) (a : Byte) (v : Nibble) : (s.memWrite a v).dp = s.dp := rfl
@[simp] theorem State.memWrite_stk (s : State) (a : Byte) (v : Nibble) : (s.memWrite a v).stk = s.stk := rfl
@[simp] theorem State.memWrite_cycles (s : State) (a : Byte) (v : Nibble) : (s.memWrite a v).cycles = s.cycles := rfl
@[simp] theorem State.memWrite_status (s : State) (a : Byte) (v : Nibble) : (s.memWrite a v).status = s.status := rfl
@[simp] theorem State.memWrite_rom (s : State) (a : Byte) (v : Nibble) : (s.memWrite a v).rom = s.rom := rfl
@[simp] theorem State.memWrite_ram (s : State) (a : Byte) (v : Nibble) : (s.memWrite a v).ram = s.ram.write a.toNat v := rfl
@[simp] theorem State.memWrite_reg (s : State) (a : Byte) (v : Nibble) (k : Nat) : (s.memWrite a v).reg k = s.reg k := rfl
@[simp] theorem State.memWrite_pair (s : State) (a : Byte) (v : Nibble) (k : Nat) : (s.memWrite a v).pair k = s.pair k := rfl
@[simp] theorem State.memWrite_progRead (s : State) (a : Byte) (v : Nibble) (k : Addr) : (s.memWrite a v).progRead k = s.progRead k := rfl

/-! ### retire -/

@[simp] theorem State.retire_regs (s : State) (t : Option Addr) (n : Nat) : (s.retire t n).regs = s.regs := rfl
@[simp] theorem State.retire_acc (s : State) (t : Option Addr) (n : Nat) : (s.retire t n).acc = s.acc := rfl
@[simp] theorem State.retire_cy (s : State) (t : Option Addr) (n : Nat) : (s.retire t n).cy = s.cy := rfl
@[simp] theorem State.retire_pc (s : State) (t : Option Addr) (n : Nat) : (s.retire t n).pc = t.getD (s.pc + BitVec.ofNat 12 n) := rfl
@[simp] theorem State.retire_dp (s : State) (t : Option Addr) (n : Nat) : (s.retire t n).dp = s.dp := rfl
@[simp] theorem State.retire_stk (s : State) (t : Option Addr) (n : Nat) : (s.retire t n).stk = s.stk := rfl
@[simp] theorem State.retire_cycles (s : State) (t : Option Addr) (n : Nat) : (s.retire t n).cycles = s.cycles + cycleCost n := rfl
@[simp] theorem State.retire_status (s : State) (t : Option Addr) (n : Nat) : (s.retire t n).status = s.status := rfl
@[simp] theorem State.retire_rom (s : State) (t : Option Addr) (n : Nat) : (s.retire t n).rom = s.rom := rfl
@[simp] theorem State.retire_ram (s : State) (t : Option Addr) (n : Nat) : (s.retire t n).ram = s.ram := rfl
@[simp] theorem State.retire_reg (s : State) (t : Option Addr) (n : Nat) (k : Nat) : (s.retire t n).reg k = s.reg k := rfl
@[simp] theorem State.retire_pair (s : State) (t : Option Addr) (n : Nat) (k : Nat) : (s.retire t n).pair k = s.pair k := rfl
@[simp] theorem State.retire_progRead (s : State) (t : Option Addr) (n : Nat) (k : Addr) : (s.retire t n).progRead k = s.progRead k := rfl
@[simp] theorem State.retire_memRead (s : State) (t : Option Addr) (n : Nat) (k : Byte) : (s.retire t n).memRead k = s.memRead k := rfl

end Sys2Proof.Machine
end

