-- ==== Sys2Proof/Laws/Registers.lean ====
section
/-! SUPPORT. Reading a register after a register or a pair is written (R10, R11). -/

namespace Sys2Proof.Machine

theorem State.reg_setReg_same (s : State) {r : Nat} (v : Nibble) (h : r < 16) : (s.setReg r v).reg r = v := by
  simp [State.reg, h]

theorem State.reg_setReg_ne (s : State) {r k : Nat} (v : Nibble) (h : k ≠ r) : (s.setReg r v).reg k = s.reg k := by
  simp [State.reg, h.symm]

theorem State.reg_setPair_ne (s : State) {p k : Nat} (b : Byte) (h : k ≠ p) (h' : k ≠ p + 1) :
    (s.setPair p b).reg k = s.reg k := by
  rw [State.setPair, State.reg_setReg_ne _ _ h', State.reg_setReg_ne _ _ h]

theorem State.reg_setPair_even (s : State) {p : Nat} (b : Byte) (h : p < 16) : (s.setPair p b).reg p = hiNibble b := by
  rw [State.setPair, State.reg_setReg_ne _ _ (by omega), State.reg_setReg_same _ _ h]

theorem State.reg_setPair_odd (s : State) {p : Nat} (b : Byte) (h : p + 1 < 16) :
    (s.setPair p b).reg (p + 1) = loNibble b := by
  rw [State.setPair, State.reg_setReg_same _ _ h]

/-- A byte is its two nibbles (R11, R38). -/
theorem hi_append_lo (b : Byte) : hiNibble b ++ loNibble b = b := by
  revert b; decide

theorem State.pair_setPair_same (s : State) {p : Nat} (b : Byte) (h : p + 1 < 16) : (s.setPair p b).pair p = b := by
  rw [State.pair, State.reg_setPair_even _ _ (by omega), State.reg_setPair_odd _ _ h, hi_append_lo]

/-- Registers are equal when every numbered register is. -/
theorem regs_ext {s t : State} (h : ∀ k, k < 16 → s.reg k = t.reg k) : s.regs = t.regs := by
  apply Vector.ext
  intro k hk
  have := h k hk
  simpa [State.reg, hk] using this

end Sys2Proof.Machine
end

