-- ==== Sys2Proof/Laws/Ops.lean ====
section
/-! SUPPORT. What each shared operation can do, said once: taking a fault, the operand check, the call stack, the end of a
step, and the fetch. -/

namespace Sys2Proof.Machine

@[simp] theorem raise_eq (k : Fault) (s : State) : raise k s = .next (s.setStatus (.faulted k)) := rfl

@[simp] theorem checked_true (s : State) (r : Result) : checked true s r = r := rfl

@[simp] theorem checked_false (s : State) (r : Result) :
    checked false s r = .next (s.setStatus (.faulted .preconditionViolation)) := rfl

/-- The operand check lets the instruction run, or takes `PreconditionViolation`. -/
theorem checked_cases {ok : Bool} {s : State} {r : Result} {t : State} (h : checked ok s r = .next t) :
    (ok = true ∧ r = .next t) ∨ (ok = false ∧ t = s.setStatus (.faulted .preconditionViolation)) := by
  cases ok with
  | true => exact .inl ⟨rfl, h⟩
  | false => exact .inr ⟨rfl, by simpa using h.symm⟩

theorem push_ok {s : State} (v : Addr) (h : s.stk.length < 3) : s.push v = .ok (s.setStk (s.stk ++ [v])) := if_pos h

theorem push_full {s : State} (v : Addr) (h : ¬ s.stk.length < 3) : s.push v = .error .stackOverflow := if_neg h

theorem pop_append (s : State) (k : List Addr) (v : Addr) (h : s.stk = k ++ [v]) : s.pop = .ok (v, s.setStk k) := by
  simp [State.pop, h]

theorem pop_empty (s : State) (h : s.stk = []) : s.pop = .error .stackUnderflow := by
  simp [State.pop, h]

/-- `push` answers the state with the entry appended, or `StackOverflow` on three entries. -/
theorem push_cases (s : State) (v : Addr) :
    (s.stk.length < 3 ∧ s.push v = .ok (s.setStk (s.stk ++ [v]))) ∨
      (3 ≤ s.stk.length ∧ s.push v = .error .stackOverflow) := by
  by_cases h : s.stk.length < 3
  · exact .inl ⟨h, push_ok v h⟩
  · exact .inr ⟨by omega, push_full v h⟩

/-- `pop` answers the last entry and the state without it, or `StackUnderflow` on none. -/
theorem pop_cases (s : State) :
    (∃ k v, s.stk = k ++ [v] ∧ s.pop = .ok (v, s.setStk k)) ∨ (s.stk = [] ∧ s.pop = .error .stackUnderflow) := by
  rcases List.eq_nil_or_concat s.stk with h | ⟨k, v, h⟩
  · exact .inr ⟨h, pop_empty s h⟩
  · rw [List.concat_eq_append] at h
    exact .inl ⟨k, v, h, pop_append s k v h⟩

@[simp] theorem retire_none (s : State) (n : Nat) : (s.retire none n).pc = s.pc + BitVec.ofNat 12 n := rfl

@[simp] theorem retire_some (s : State) (t : Addr) (n : Nat) : (s.retire (some t) n).pc = t := rfl

/-- A conditional jump is a completed two-byte step to one of two addresses. -/
theorem branch_eq (s : State) (b : Bool) (off : Byte) :
    s.branch b off = s.retire (if b then some (pageTarget s.pc off) else none) 2 := rfl

theorem step_running {s : State} (h : s.status = .running) : step s = runningStep s := by
  simp only [step, stepByStatus, h]

theorem step_faulted {s : State} {k : Fault} (h : s.status = .faulted k) : step s = .fault k := by
  simp only [step, stepByStatus, h]

theorem step_halted {s : State} (h : s.status = .halted) : step s = .refused .halted := by
  simp only [step, stepByStatus, h]

/-- What a step can answer with a next state: a running core runs the fetched instruction or takes `IllegalOpcode`. -/
theorem step_cases {s t : State} (h : step s = .next t) :
    s.status = .running ∧
      ((s.fetchDecode = none ∧ t = s.setStatus (.faulted .illegalOpcode)) ∨
        ∃ i, s.fetchDecode = some i ∧ exec i s = .next t) := by
  simp only [step, stepByStatus] at h
  split at h
  · refine ⟨‹_›, ?_⟩
    simp only [runningStep] at h
    split at h
    · exact .inl ⟨‹_›, by simpa using h.symm⟩
    · exact .inr ⟨_, ‹_›, h⟩
  · cases h
  · cases h

end Sys2Proof.Machine
end

