-- ==== Sys2Proof/Laws/Fields.lean ====
section
/-! SUPPORT. The bit fields of the spec as numbers: nibbles of a byte, in-page targets, the halves of a 12-bit address; and
which instruction a fetch gives. -/

namespace Sys2Proof.Machine

theorem nibble_append_toNat (a b : Nibble) : (a ++ b).toNat = a.toNat * 16 + b.toNat := by
  rw [BitVec.toNat_append, ← Nat.shiftLeft_add_eq_or_of_lt b.isLt, Nat.shiftLeft_eq]

theorem addr_append_toNat (a : Nibble) (b : Byte) : (a ++ b).toNat = a.toNat * 256 + b.toNat := by
  rw [BitVec.toNat_append, ← Nat.shiftLeft_add_eq_or_of_lt b.isLt, Nat.shiftLeft_eq]

theorem hiNibble_toNat (b : Byte) : (hiNibble b).toNat = b.toNat / 16 := by
  simp only [hiNibble, BitVec.extractLsb'_toNat, Nat.shiftRight_eq_div_pow]
  omega

theorem loNibble_toNat (b : Byte) : (loNibble b).toNat = b.toNat % 16 := by
  simp only [loNibble, BitVec.extractLsb'_toNat, Nat.shiftRight_eq_div_pow]
  omega

/-- The in-page target as a number (R62). -/
theorem pageTarget_toNat (pc : Addr) (b : Byte) : (pageTarget pc b).toNat = pc.toNat / 256 * 256 + b.toNat := by
  rw [pageTarget, addr_append_toNat, BitVec.extractLsb'_toNat, Nat.shiftRight_eq_div_pow]
  omega

/-- The two halves of a well-formed 12-bit address give it back (R61). -/
theorem addrHi_append_addrLo {a : Nat} (h : a < 4096) : (addrHi a ++ addrLo a).toNat = a := by
  rw [addr_append_toNat, addrHi, addrLo, BitVec.toNat_ofNat, BitVec.toNat_ofNat]
  omega

theorem addrHi_append (a : Nibble) (b : Byte) : addrHi (a ++ b).toNat = a := by
  apply BitVec.eq_of_toNat_eq
  rw [addr_append_toNat, addrHi, BitVec.toNat_ofNat]
  omega

theorem addrLo_append (a : Nibble) (b : Byte) : addrLo (a ++ b).toNat = b := by
  apply BitVec.eq_of_toNat_eq
  rw [addr_append_toNat, addrLo, BitVec.toNat_ofNat]
  omega

/-- A pair as a number (R11). -/
theorem State.pair_toNat (s : State) (p : Nat) : (s.pair p).toNat = (s.reg p).toNat * 16 + (s.reg (p + 1)).toNat :=
  nibble_append_toNat _ _

/-- The address `FIN` reads as a number (R84). -/
theorem finAddr_toNat (s : State) : (finAddr s).toNat = (s.reg 0).toNat * 16 + (s.reg 1).toNat := by
  rw [finAddr, BitVec.toNat_setWidth, State.pair_toNat, Nat.zero_add]
  omega

theorem fetchDecode_none {s : State} : s.fetchDecode = none ↔ decodeOpcode (s.progRead s.pc) = .illegal := by
  unfold State.fetchDecode
  split <;> simp_all

end Sys2Proof.Machine
end

