-- ==== Sys2Proof/Laws/Memory.lean ====
section
/-! SUPPORT. The laws of a memory: every operation keeps the canonical form, a read after a write at one address gives the
value written, a write leaves every other address alone. -/

namespace Sys2Proof.Machine

variable {w : Nat}

theorem Memory.wfFrom_cons {size lo a : Nat} {v : BitVec w} {m : Memory w} :
    Memory.wfFrom size lo ((a, v) :: m) = true ↔
      lo ≤ a ∧ a < size ∧ v ≠ 0#w ∧ Memory.wfFrom size (a + 1) m = true := by
  simp only [Memory.wfFrom, Bool.and_eq_true, decide_eq_true_eq]
  tauto

/-- A canonical memory from `lo` on is canonical from any lower start. -/
theorem Memory.wfFrom_mono {size lo lo' : Nat} {m : Memory w} (hle : lo' ≤ lo) (h : m.wfFrom size lo = true) :
    m.wfFrom size lo' = true := by
  cases m with
  | nil => rfl
  | cons c m =>
    obtain ⟨a, v⟩ := c
    rw [Memory.wfFrom_cons] at h ⊢
    exact ⟨by omega, h.2⟩

/-- An address below every listed one reads as 0. -/
theorem Memory.read_below {size lo a : Nat} {m : Memory w} (h : m.wfFrom size lo = true) (ha : a < lo) :
    m.read a = 0#w := by
  induction m generalizing lo with
  | nil => rfl
  | cons c m ih =>
    obtain ⟨b, u⟩ := c
    obtain ⟨h1, -, -, h4⟩ := Memory.wfFrom_cons.mp h
    rw [Memory.read, if_neg (by omega)]
    exact ih h4 (by omega)

theorem Memory.write_wfFrom {size lo a : Nat} {v : BitVec w} {m : Memory w} (h : m.wfFrom size lo = true)
    (hlo : lo ≤ a) (ha : a < size) : (m.write a v).wfFrom size lo = true := by
  induction m generalizing lo with
  | nil =>
    by_cases hv : v = 0#w
    · simp [Memory.write, hv, Memory.wfFrom]
    · rw [Memory.write, if_neg hv, Memory.wfFrom_cons]
      exact ⟨hlo, ha, hv, rfl⟩
  | cons c m ih =>
    obtain ⟨b, u⟩ := c
    obtain ⟨h1, h2, h3, h4⟩ := Memory.wfFrom_cons.mp h
    rw [Memory.write]
    split
    · split
      · exact h
      · rw [Memory.wfFrom_cons, Memory.wfFrom_cons]
        exact ⟨hlo, ha, ‹_›, by omega, h2, h3, h4⟩
    · split
      · subst a
        split
        · exact Memory.wfFrom_mono (by omega) h4
        · rw [Memory.wfFrom_cons]
          exact ⟨h1, h2, ‹_›, h4⟩
      · rw [Memory.wfFrom_cons]
        exact ⟨h1, h2, h3, ih h4 (by omega)⟩

/-- A write inside the size keeps the canonical form. -/
theorem Memory.write_wf {size a : Nat} {v : BitVec w} {m : Memory w} (h : m.wf size = true) (ha : a < size) :
    (m.write a v).wf size = true := Memory.write_wfFrom h (Nat.zero_le a) ha

theorem Memory.read_write_from {size lo a : Nat} {v : BitVec w} {m : Memory w} (h : m.wfFrom size lo = true) (k : Nat) :
    (m.write a v).read k = if k = a then v else m.read k := by
  induction m generalizing lo with
  | nil =>
    rw [Memory.write]
    by_cases hv : v = 0#w <;> by_cases hk : k = a <;> simp [hv, hk, Memory.read]
  | cons c m ih =>
    obtain ⟨b, u⟩ := c
    obtain ⟨-, -, -, h4⟩ := Memory.wfFrom_cons.mp h
    have below : ∀ j, j < b + 1 → Memory.read m j = 0#w := fun j hj => Memory.read_below h4 hj
    rw [Memory.write]
    split
    · by_cases hv : v = 0#w
      · rw [if_pos hv]
        by_cases hk : k = a
        · rw [if_pos hk, hv, Memory.read, if_neg (by omega), below k (by omega)]
        · rw [if_neg hk]
      · rw [if_neg hv, Memory.read]
    · split
      · subst a
        by_cases hv : v = 0#w
        · rw [if_pos hv]
          by_cases hk : k = b
          · rw [if_pos hk, hv, below k (by omega)]
          · rw [if_neg hk, Memory.read, if_neg hk]
        · rw [if_neg hv, Memory.read, Memory.read]
          by_cases hk : k = b <;> simp [hk]
      · rw [Memory.read, ih h4, Memory.read]
        by_cases hk : k = b
        · rw [if_pos hk, if_neg (by omega), if_pos hk]
        · rw [if_neg hk, if_neg hk]

theorem Memory.read_write_same {size a : Nat} {v : BitVec w} {m : Memory w} (h : m.wf size = true) :
    (m.write a v).read a = v := by rw [Memory.read_write_from h, if_pos rfl]

theorem Memory.read_write_ne {size a k : Nat} {v : BitVec w} {m : Memory w} (h : m.wf size = true) (hk : k ≠ a) :
    (m.write a v).read k = m.read k := by rw [Memory.read_write_from h, if_neg hk]

/-- Canonical memories that read alike are equal. -/
theorem Memory.ext_from {size lo : Nat} {m n : Memory w} (hm : m.wfFrom size lo = true) (hn : n.wfFrom size lo = true)
    (h : ∀ a, m.read a = n.read a) : m = n := by
  induction m generalizing n lo with
  | nil =>
    cases n with
    | nil => rfl
    | cons c n =>
      obtain ⟨b, u⟩ := c
      obtain ⟨-, -, h3, -⟩ := Memory.wfFrom_cons.mp hn
      exact absurd (by simpa [Memory.read] using (h b).symm) h3
  | cons c m ih =>
    obtain ⟨a, v⟩ := c
    obtain ⟨m1, -, m3, m4⟩ := Memory.wfFrom_cons.mp hm
    cases n with
    | nil => exact absurd (by simpa [Memory.read] using h a) m3
    | cons d n =>
      obtain ⟨b, u⟩ := d
      obtain ⟨n1, -, n3, n4⟩ := Memory.wfFrom_cons.mp hn
      have hab : a = b := by
        by_contra hne
        rcases Nat.lt_or_gt_of_ne hne with hlt | hgt
        · refine m3 ?_
          have := h a
          rwa [Memory.read, if_pos rfl, Memory.read, if_neg hne, Memory.read_below n4 (by omega)] at this
        · refine n3 ?_
          have := h b
          rwa [Memory.read, if_neg (Ne.symm hne), Memory.read_below m4 (by omega), Memory.read, if_pos rfl, eq_comm] at this
      subst hab
      have hvu : v = u := by simpa [Memory.read] using h a
      subst hvu
      rw [ih m4 n4]
      intro k
      by_cases hk : k = a
      · rw [hk, Memory.read_below m4 (by omega), Memory.read_below n4 (by omega)]
      · simpa [Memory.read, hk] using h k

theorem Memory.ext_of_wf {size : Nat} {m n : Memory w} (hm : m.wf size = true) (hn : n.wf size = true)
    (h : ∀ a, m.read a = n.read a) : m = n := Memory.ext_from hm hn h

/-! ### The data store through its accessors (R34, R35) -/

theorem State.memRead_memWrite_same {s : State} {size : Nat} (h : s.ram.wf size = true) (a : Byte) (v : Nibble) :
    (s.memWrite a v).memRead a = v := Memory.read_write_same h

theorem State.memRead_memWrite_ne {s : State} {size : Nat} (h : s.ram.wf size = true) {a k : Byte} (v : Nibble) (hk : k ≠ a) :
    (s.memWrite a v).memRead k = s.memRead k := Memory.read_write_ne h fun e => hk (BitVec.eq_of_toNat_eq e)

/-! ### The image load (R151) -/

theorem imageFrom_wfFrom {size a : Nat} (img : List Byte) (h : a + img.length ≤ size) :
    (imageFrom a img).wfFrom size a = true := by
  induction img generalizing a with
  | nil => rfl
  | cons b bs ih =>
    rw [List.length_cons] at h
    have hbs := ih (a := a + 1) (by omega)
    rw [imageFrom]
    split
    · exact Memory.wfFrom_mono (by omega) hbs
    · rw [Memory.wfFrom_cons]
      exact ⟨le_refl a, by omega, ‹_›, hbs⟩

theorem imageFrom_wf (img : List Byte) (h : img.length ≤ Config.progSize) :
    (imageFrom 0 img).wf Config.progSize = true := imageFrom_wfFrom img (by omega)

theorem imageFrom_read_below {a k : Nat} (img : List Byte) (h : k < a) : (imageFrom a img).read k = 0#8 :=
  Memory.read_below (imageFrom_wfFrom img (le_refl _)) h

/-- Reading an image gives its byte, and 0 beyond its length. -/
theorem imageFrom_read {a : Nat} (img : List Byte) (k : Nat) : (imageFrom a img).read (a + k) = img[k]?.getD 0#8 := by
  induction img generalizing a k with
  | nil => rfl
  | cons b bs ih =>
    cases k with
    | zero =>
      rw [imageFrom]
      split
      · simp [imageFrom_read_below bs (Nat.lt_succ_self a), *]
      · simp [Memory.read]
    | succ k =>
      have := ih (a := a + 1) k
      rw [show a + 1 + k = a + (k + 1) by omega] at this
      rw [imageFrom]
      split
      · simpa using this
      · rw [Memory.read, if_neg (by omega)]
        simpa using this

end Sys2Proof.Machine
end

