-- ==== Sys2Proof/Laws/PerInstr.lean ====
section
/-! SUPPORT. Laws of instruction terms, one lemma per constructor of `Instr`. `EncodeLength`: the encoder writes as many
bytes as the format's length (R50, Table E-1). -/

namespace Sys2Proof.Laws

def EncodeLength.Statement (i : Instr) : Prop := (encode i).length = i.length

theorem EncodeLength.ldm (imm : Nibble) : EncodeLength.Statement (.ldm imm) := rfl
theorem EncodeLength.ld (r : Nat) : EncodeLength.Statement (.ld r) := rfl
theorem EncodeLength.xch (r : Nat) : EncodeLength.Statement (.xch r) := rfl
theorem EncodeLength.fim (rp : Nat) (imm8 : Byte) : EncodeLength.Statement (.fim rp imm8) := rfl
theorem EncodeLength.fin (rp : Nat) : EncodeLength.Statement (.fin rp) := rfl
theorem EncodeLength.add (r : Nat) : EncodeLength.Statement (.add r) := rfl
theorem EncodeLength.sub (r : Nat) : EncodeLength.Statement (.sub r) := rfl
theorem EncodeLength.inc (r : Nat) : EncodeLength.Statement (.inc r) := rfl
theorem EncodeLength.iac : EncodeLength.Statement (.iac) := rfl
theorem EncodeLength.dac : EncodeLength.Statement (.dac) := rfl
theorem EncodeLength.clc : EncodeLength.Statement (.clc) := rfl
theorem EncodeLength.stc : EncodeLength.Statement (.stc) := rfl
theorem EncodeLength.cmc : EncodeLength.Statement (.cmc) := rfl
theorem EncodeLength.clb : EncodeLength.Statement (.clb) := rfl
theorem EncodeLength.cma : EncodeLength.Statement (.cma) := rfl
theorem EncodeLength.ral : EncodeLength.Statement (.ral) := rfl
theorem EncodeLength.rar : EncodeLength.Statement (.rar) := rfl
theorem EncodeLength.tcc : EncodeLength.Statement (.tcc) := rfl
theorem EncodeLength.jun (a : Nat) : EncodeLength.Statement (.jun a) := rfl
theorem EncodeLength.jms (a : Nat) : EncodeLength.Statement (.jms a) := rfl
theorem EncodeLength.bbl (imm : Nibble) : EncodeLength.Statement (.bbl imm) := rfl
theorem EncodeLength.jin (rp : Nat) : EncodeLength.Statement (.jin rp) := rfl
theorem EncodeLength.isz (r : Nat) (b : Byte) : EncodeLength.Statement (.isz r b) := rfl
theorem EncodeLength.jcnC1 (b : Byte) : EncodeLength.Statement (.jcnC1 b) := rfl
theorem EncodeLength.jcnAZ (b : Byte) : EncodeLength.Statement (.jcnAZ b) := rfl
theorem EncodeLength.jcnC0 (b : Byte) : EncodeLength.Statement (.jcnC0 b) := rfl
theorem EncodeLength.jcnAN (b : Byte) : EncodeLength.Statement (.jcnAN b) := rfl
theorem EncodeLength.src (rp : Nat) : EncodeLength.Statement (.src rp) := rfl
theorem EncodeLength.wrm : EncodeLength.Statement (.wrm) := rfl
theorem EncodeLength.rdm : EncodeLength.Statement (.rdm) := rfl
theorem EncodeLength.adm : EncodeLength.Statement (.adm) := rfl
theorem EncodeLength.sbm : EncodeLength.Statement (.sbm) := rfl

end Sys2Proof.Laws
end

