-- ==== Sys2Proof/Laws/Runs.lean ====
section
/-! SUPPORT. Instructions executed one after the other (`execAll`): the empty list, one more in front, two lists in a row. -/

namespace Sys2Proof.Machine

@[simp] theorem execAll_nil (s : State) : execAll [] s = .next s := rfl

theorem execAll_cons_next {i : Instr} {s t : State} (h : exec i s = .next t) (is : List Instr) :
    execAll (i :: is) s = execAll is t := by
  rw [execAll, h]

/-- A list that runs to a next state is followed by the rest from there. -/
theorem execAll_append_next {as : List Instr} {s t : State} (h : execAll as s = .next t) (bs : List Instr) :
    execAll (as ++ bs) s = execAll bs t := by
  induction as generalizing s with
  | nil =>
    cases h
    rfl
  | cons i is ih =>
    rw [List.cons_append, execAll]
    rw [execAll] at h
    cases hi : exec i s with
    | next u =>
      rw [hi] at h
      exact ih h
    | fault k => rw [hi] at h; cases h
    | refused r => rw [hi] at h; cases h

end Sys2Proof.Machine
end

