-- ==== Sys2Proof/Tests/Slice0.lean ====
section
/-! SUPPORT. The model's own tests. Expected results are the vectors of spec/95_test_vectors.md, the encoding lines of the
rules and the tables of the spec, never an answer of the model. The witnesses at the end show, for every statement with
hypotheses, a concrete state and operands that meet them. -/

namespace Sys2Proof.Machine

/-! ### Helpers -/

/-- Bytes placed in the program store. -/
def State.place (s : State) (l : List (Nat × Nat)) : State :=
  s.setRom (l.foldl (fun m c => m.write c.1 (BitVec.ofNat 8 c.2)) s.rom)

/-- The reset state with an instruction's bytes at `pc`, the second at `pc + 1` modulo 4096. -/
def prog (pc : Nat) (bytes : List Nat) : State :=
  (State.place { State.reset with pc := BitVec.ofNat 12 pc }
    ((List.range bytes.length).map fun k => ((pc + k) % 4096, bytes[k]?.getD 0)))

/-- The register file with some registers set, the others 0. -/
def xs (l : List (Nat × Nat)) : Vector Nibble Config.numRegs :=
  l.foldl (fun v c => v.setIfInBounds c.1 (BitVec.ofNat 4 c.2)) (Vector.replicate Config.numRegs 0#4)

/-! ### Well-formedness: each check refuses an ill-formed term (R130) -/

theorem test_wf_register_out_of_range :
    [Instr.ld 16, .xch 16, .add 16, .sub 99, .inc 16, .isz 16 0#8].all (fun i => !i.wellFormed) = true := by decide

theorem test_wf_odd_pair : [Instr.fim 1 0#8, .fin 3, .jin 15, .src 7].all (fun i => !i.wellFormed) = true := by decide

theorem test_wf_pair_out_of_range : [Instr.fim 16 0#8, .fin 16, .jin 18, .src 20].all (fun i => !i.wellFormed) = true := by
  decide

theorem test_wf_address_out_of_store : [Instr.jun 4096, .jms 5000].all (fun i => !i.wellFormed) = true := by decide

theorem test_wf_accepts_bounds :
    [Instr.ld 15, .fim 14 0xFF#8, .src 0, .jun 4095, .isz 15 0xFF#8, .ldm 15#4].all (fun i => i.wellFormed) = true := by
  decide

/-- A term with a register number of 16 raises `PreconditionViolation` and writes nothing else (Table G-1, R131). -/
theorem test_ill_formed_term_faults :
    nextState (exec (.add 16) State.reset) = some { State.reset with status := .faulted .preconditionViolation } := by decide

/-- The operand check comes before the stack fault (R132): a `JMS` outside the store on a full stack. -/
theorem test_precondition_before_stack_fault :
    nextState (exec (.jms 4096) { State.reset with stk := [1#12, 2#12, 3#12] }) =
      some { State.reset with stk := [1#12, 2#12, 3#12], status := .faulted .preconditionViolation } := by decide

/-! ### Decoding: a word of every row of the opcode table, from the encoding line of its rule -/

theorem test_decode_load_move :
    decodeOpcode 0b11010101#8 = .oneByte (.ldm 5#4) ∧ decodeOpcode 0b10100011#8 = .oneByte (.ld 3) ∧
      decodeOpcode 0b10111111#8 = .oneByte (.xch 15) ∧
      decodeBytes [0b00100010#8, 0b01011010#8] = .ok (.fim 2 0x5A#8, []) ∧
      decodeOpcode 0b00111110#8 = .oneByte (.fin 14) := by decide

theorem test_decode_arithmetic :
    decodeOpcode 0b10000001#8 = .oneByte (.add 1) ∧ decodeOpcode 0b10011010#8 = .oneByte (.sub 10) ∧
      decodeOpcode 0b01101100#8 = .oneByte (.inc 12) ∧ decodeOpcode 0b11110010#8 = .oneByte .iac ∧
      decodeOpcode 0b11111000#8 = .oneByte .dac := by decide

theorem test_decode_logic_flags :
    decodeOpcode 0b11110001#8 = .oneByte .clc ∧ decodeOpcode 0b11111010#8 = .oneByte .stc ∧
      decodeOpcode 0b11110011#8 = .oneByte .cmc ∧ decodeOpcode 0b11110000#8 = .oneByte .clb ∧
      decodeOpcode 0b11110100#8 = .oneByte .cma ∧ decodeOpcode 0b11110101#8 = .oneByte .ral ∧
      decodeOpcode 0b11110110#8 = .oneByte .rar ∧ decodeOpcode 0b11110111#8 = .oneByte .tcc := by decide

theorem test_decode_control_transfer :
    decodeBytes [0b01001010#8, 0b10111100#8] = .ok (.jun 0xABC, []) ∧
      decodeBytes [0b01010101#8, 0b11110000#8] = .ok (.jms 0x5F0, []) ∧ decodeOpcode 0b11001001#8 = .oneByte (.bbl 9#4) ∧
      decodeOpcode 0b00110101#8 = .oneByte (.jin 4) ∧
      decodeBytes [0b01110001#8, 0b00000111#8] = .ok (.isz 1 0x07#8, []) ∧
      decodeBytes [0b00010010#8, 0b10000000#8] = .ok (.jcnC1 0x80#8, []) ∧
      decodeBytes [0b00010100#8, 0b00100000#8] = .ok (.jcnAZ 0x20#8, []) ∧
      decodeBytes [0b00011010#8, 0b00001101#8] = .ok (.jcnC0 0x0D#8, []) ∧
      decodeBytes [0b00011100#8, 0b00100000#8] = .ok (.jcnAN 0x20#8, []) := by decide

theorem test_decode_memory_access :
    decodeOpcode 0b00101111#8 = .oneByte (.src 14) ∧ decodeOpcode 0b11100000#8 = .oneByte .wrm ∧
      decodeOpcode 0b11101001#8 = .oneByte .rdm ∧ decodeOpcode 0b11101011#8 = .oneByte .adm ∧
      decodeOpcode 0b11101000#8 = .oneByte .sbm := by decide

/-- Counts of R55: 46 illegal bytes of 256. -/
theorem test_decode_counts :
    ((List.range 256).filter fun n => decide (decodeOpcode (BitVec.ofNat 8 n) = .illegal)).length = 46 := by decide

theorem test_decode_rejects_by_name :
    decodeBytes [] = .error .noOpcodeByte ∧ decodeBytes [0x00#8, 0x01#8] = .error (.illegalOpcode 0x00#8) ∧
      decodeBytes [0x40#8] = .error (.noOperandByte 0x40#8) := by decide

/-- The rows `FIM`, `JUN` and `LDM` as table words (low byte first). -/
theorem test_decode_table_word :
    decodeTableWord 16 0x5A22 = some (.fim 2 0x5A#8) ∧ decodeTableWord 8 0x40 = some (.jun 0) ∧
      decodeTableWord 8 0xFFD5 = some (.ldm 5#4) ∧ decodeTableWord 8 0x00 = none := by decide

/-- A table word placed where the next step fetches is what the step runs, as the first instruction after reset. -/
theorem test_fetch_word_runs :
    nextState (step (State.reset.withFetchWord 16 0x5A22)) =
      some { State.reset with rom := [(0, 0x22#8), (1, 0x5A#8)], regs := xs [(2, 5), (3, 10)], pc := 2#12, cycles := 16 } := by
  decide

/-! ### Assembly notation (R66) -/

theorem test_asm_jcn :
    assemble 0x009#12 ⟨.JCN, [.cond .C0, .num 0x00D]⟩ = some (.jcnC0 0x0D#8) ∧
      assemble 0x009#12 ⟨.JCN, [.num 10, .num 0x00D]⟩ = some (.jcnC0 0x0D#8) ∧
      assemble 0x009#12 ⟨.JCN, [.cond .C0, .num 0x10D]⟩ = none ∧
      assemble 0x009#12 ⟨.JCN, [.num 3, .num 0x00D]⟩ = none := by decide

theorem test_asm_refuses :
    assemble 0#12 ⟨.FIN, [.num 3]⟩ = none ∧ assemble 0#12 ⟨.LDM, [.num 16]⟩ = none ∧
      assemble 0#12 ⟨.CLC, [.num 0]⟩ = none := by decide

/-! ### One step each, from the vectors of 95_test_vectors.md section 2 -/

/-- Vector "LDM 0 over A=9 (R80)". -/
theorem test_step_ldm_zero_over_nine : nextState (step
    ({ prog 0x000 [0xD0] with acc := 9#4 })) =
    some { prog 0x000 [0xD0] with acc := 0#4, pc := 0x001#12, cycles := 8 } := by decide

/-- Vector "LDM 15 (R80)". -/
theorem test_step_ldm_15 : nextState (step
    ({ prog 0x000 [0xDF] with acc := 3#4, cy := 1#1 })) =
    some { prog 0x000 [0xDF] with acc := 15#4, cy := 1#1, pc := 0x001#12, cycles := 8 } := by decide

/-- Vector "LD 15 (R81)". -/
theorem test_step_ld_15 : nextState (step
    ({ prog 0x000 [0xAF] with acc := 1#4, cy := 1#1, regs := xs [(15, 14)] })) =
    some { prog 0x000 [0xAF] with acc := 14#4, cy := 1#1, pc := 0x001#12, regs := xs [(15, 14)], cycles := 8 } := by decide

/-- Vector "XCH 0 (R82)". -/
theorem test_step_xch_0 : nextState (step
    ({ prog 0x000 [0xB0] with acc := 5#4 })) =
    some { prog 0x000 [0xB0] with acc := 0#4, pc := 0x001#12, regs := xs [(0, 5)], cycles := 8 } := by decide

/-- Vector "XCH 15 (R82)". -/
theorem test_step_xch_15 : nextState (step
    ({ prog 0x000 [0xBF] with acc := 0#4, regs := xs [(15, 12)] })) =
    some { prog 0x000 [0xBF] with acc := 12#4, pc := 0x001#12, regs := xs [(15, 0)], cycles := 8 } := by decide

/-- Vector "FIM 2, 0x5A (R83)". -/
theorem test_step_fim_2 : nextState (step
    (prog 0x000 [0x22, 0x5A])) =
    some { prog 0x000 [0x22, 0x5A] with pc := 0x002#12, regs := xs [(2, 5), (3, 10)], cycles := 16 } := by decide

/-- Vector "FIM 4 at 0xFFF, operand wraps to 0x000 (R83, R69)". -/
theorem test_step_fim_operand_wraps : nextState (step
    (prog 0xFFF [0x24, 0xC3])) =
    some { prog 0xFFF [0x24, 0xC3] with pc := 0x001#12, regs := xs [(4, 12), (5, 3)], cycles := 16 } := by decide

/-- Vector "FIN 0, address pair overwritten (R84)". -/
theorem test_step_fin_overwrites_its_address_pair : nextState (step
    ({ State.place (prog 0x000 [0x30]) [(0x4, 0xa7)] with regs := xs [(0, 0), (1, 4)] })) =
    some { State.place (prog 0x000 [0x30]) [(0x4, 0xa7)] with pc := 0x001#12, regs := xs [(0, 10), (1, 7)], cycles := 8 } := by decide

/-- Vector "FIN 6 in page 3 reads page 0 (R84)". -/
theorem test_step_fin_reads_page_zero : nextState (step
    ({ State.place (prog 0x345 [0x36]) [(0x1, 0x9c), (0x301, 0x11)] with regs := xs [(0, 0), (1, 1)] })) =
    some { State.place (prog 0x345 [0x36]) [(0x1, 0x9c), (0x301, 0x11)] with pc := 0x346#12, regs := xs [(0, 0), (1, 1), (6, 9), (7, 12)], cycles := 8 } := by decide

/-- Vector "ADD 1, max sum 31 (R92)". -/
theorem test_step_add_max_sum : nextState (step
    ({ prog 0x000 [0x81] with acc := 15#4, cy := 1#1, regs := xs [(1, 15)] })) =
    some { prog 0x000 [0x81] with acc := 15#4, cy := 1#1, pc := 0x001#12, regs := xs [(1, 15)], cycles := 8 } := by decide

/-- Vector "ADD 0 (R92)". -/
theorem test_step_add_carry_out : nextState (step
    ({ prog 0x000 [0x80] with acc := 11#4, regs := xs [(0, 7)] })) =
    some { prog 0x000 [0x80] with acc := 2#4, cy := 1#1, pc := 0x001#12, regs := xs [(0, 7)], cycles := 8 } := by decide

/-- Vector "SUB 6, borrow (R93)". -/
theorem test_step_sub_borrow : nextState (step
    ({ prog 0x000 [0x96] with acc := 4#4, cy := 1#1, regs := xs [(6, 6)] })) =
    some { prog 0x000 [0x96] with acc := 14#4, cy := 0#1, pc := 0x001#12, regs := xs [(6, 6)], cycles := 8 } := by decide

/-- Vector "SUB 3, document counter-example (R93, C3)". -/
theorem test_step_sub_borrow_in : nextState (step
    ({ prog 0x000 [0x93] with acc := 5#4, cy := 0#1, regs := xs [(3, 3)] })) =
    some { prog 0x000 [0x93] with acc := 1#4, cy := 1#1, pc := 0x001#12, regs := xs [(3, 3)], cycles := 8 } := by decide

/-- Vector "INC 12, wrap, CY kept (R94)". -/
theorem test_step_inc_wrap_keeps_cy : nextState (step
    ({ prog 0x000 [0x6C] with cy := 1#1, regs := xs [(12, 15)] })) =
    some { prog 0x000 [0x6C] with cy := 1#1, pc := 0x001#12, regs := xs [(12, 0)], cycles := 8 } := by decide

/-- Vector "INC 0 (R94)". -/
theorem test_step_inc_0 : nextState (step
    (prog 0x000 [0x60])) =
    some { prog 0x000 [0x60] with pc := 0x001#12, regs := xs [(0, 1)], cycles := 8 } := by decide

/-- Vector "IAC, overflow (R95)". -/
theorem test_step_iac_overflow : nextState (step
    ({ prog 0x000 [0xF2] with acc := 15#4 })) =
    some { prog 0x000 [0xF2] with acc := 0#4, cy := 1#1, pc := 0x001#12, cycles := 8 } := by decide

/-- Vector "IAC, clears CY (R95, D7)". -/
theorem test_step_iac_clears_cy : nextState (step
    ({ prog 0x000 [0xF2] with acc := 3#4, cy := 1#1 })) =
    some { prog 0x000 [0xF2] with acc := 4#4, cy := 0#1, pc := 0x001#12, cycles := 8 } := by decide

/-- Vector "DAC from 0, borrow (R96)". -/
theorem test_step_dac_borrow : nextState (step
    ({ prog 0x000 [0xF8] with acc := 0#4, cy := 1#1 })) =
    some { prog 0x000 [0xF8] with acc := 15#4, cy := 0#1, pc := 0x001#12, cycles := 8 } := by decide

/-- Vector "DAC from 1 (R96)". -/
theorem test_step_dac_from_1 : nextState (step
    ({ prog 0x000 [0xF8] with acc := 1#4, cy := 0#1 })) =
    some { prog 0x000 [0xF8] with acc := 0#4, cy := 1#1, pc := 0x001#12, cycles := 8 } := by decide

/-- Vector "CLC (R100)". -/
theorem test_step_clc : nextState (step
    ({ prog 0x000 [0xF1] with cy := 1#1, acc := 6#4 })) =
    some { prog 0x000 [0xF1] with cy := 0#1, acc := 6#4, pc := 0x001#12, cycles := 8 } := by decide

/-- Vector "STC (R101)". -/
theorem test_step_stc : nextState (step
    ({ prog 0x000 [0xFA] with acc := 6#4 })) =
    some { prog 0x000 [0xFA] with acc := 6#4, cy := 1#1, pc := 0x001#12, cycles := 8 } := by decide

/-- Vector "CMC 0->1 (R102)". -/
theorem test_step_cmc_set : nextState (step
    (prog 0x000 [0xF3])) =
    some { prog 0x000 [0xF3] with cy := 1#1, pc := 0x001#12, cycles := 8 } := by decide

/-- Vector "CMC 1->0 (R102)". -/
theorem test_step_cmc_clear : nextState (step
    ({ prog 0x000 [0xF3] with cy := 1#1 })) =
    some { prog 0x000 [0xF3] with cy := 0#1, pc := 0x001#12, cycles := 8 } := by decide

/-- Vector "CLB (R103)". -/
theorem test_step_clb : nextState (step
    ({ prog 0x000 [0xF0] with acc := 9#4, cy := 1#1 })) =
    some { prog 0x000 [0xF0] with acc := 0#4, cy := 0#1, pc := 0x001#12, cycles := 8 } := by decide

/-- Vector "CMA 0b1010 (R104)". -/
theorem test_step_cma_keeps_cy : nextState (step
    ({ prog 0x000 [0xF4] with acc := 10#4, cy := 1#1 })) =
    some { prog 0x000 [0xF4] with acc := 5#4, cy := 1#1, pc := 0x001#12, cycles := 8 } := by decide

/-- Vector "RAL 0b1010 CY=1 (R105)". -/
theorem test_step_ral_with_cy : nextState (step
    ({ prog 0x000 [0xF5] with acc := 10#4, cy := 1#1 })) =
    some { prog 0x000 [0xF5] with acc := 5#4, cy := 1#1, pc := 0x001#12, cycles := 8 } := by decide

/-- Vector "RAL 0b1000 CY=0 (R105)". -/
theorem test_step_ral_out_of_top : nextState (step
    ({ prog 0x000 [0xF5] with acc := 8#4, cy := 0#1 })) =
    some { prog 0x000 [0xF5] with acc := 0#4, cy := 1#1, pc := 0x001#12, cycles := 8 } := by decide

/-- Vector "RAR 0b1010 CY=1 (R106)". -/
theorem test_step_rar_with_cy : nextState (step
    ({ prog 0x000 [0xF6] with acc := 10#4, cy := 1#1 })) =
    some { prog 0x000 [0xF6] with acc := 13#4, cy := 0#1, pc := 0x001#12, cycles := 8 } := by decide

/-- Vector "RAR 0b0001 CY=0 (R106)". -/
theorem test_step_rar_out_of_bottom : nextState (step
    ({ prog 0x000 [0xF6] with acc := 1#4, cy := 0#1 })) =
    some { prog 0x000 [0xF6] with acc := 0#4, cy := 1#1, pc := 0x001#12, cycles := 8 } := by decide

/-- Vector "TCC CY=1 (R107)". -/
theorem test_step_tcc_one : nextState (step
    ({ prog 0x000 [0xF7] with acc := 7#4, cy := 1#1 })) =
    some { prog 0x000 [0xF7] with acc := 1#4, cy := 0#1, pc := 0x001#12, cycles := 8 } := by decide

/-- Vector "TCC CY=0 (R107)". -/
theorem test_step_tcc_zero : nextState (step
    ({ prog 0x000 [0xF7] with acc := 7#4, cy := 0#1 })) =
    some { prog 0x000 [0xF7] with acc := 0#4, cy := 0#1, pc := 0x001#12, cycles := 8 } := by decide

/-- Vector "JUN 0x00A to itself (R111)". -/
theorem test_step_jun_to_itself : nextState (step
    (prog 0x00A [0x40, 0x0A])) =
    some { prog 0x00A [0x40, 0x0A] with pc := 0x00A#12, cycles := 16 } := by decide

/-- Vector "JUN 0xABC (R111)". -/
theorem test_step_jun_far : nextState (step
    (prog 0x123 [0x4A, 0xBC])) =
    some { prog 0x123 [0x4A, 0xBC] with pc := 0xABC#12, cycles := 16 } := by decide

/-- Vector "JMS 0x5F0, depth 2 (R112)". -/
theorem test_step_jms_depth_2 : nextState (step
    ({ prog 0x200 [0x55, 0xF0] with stk := [0x002#12, 0x102#12] })) =
    some { prog 0x200 [0x55, 0xF0] with stk := [0x002#12, 0x102#12, 0x202#12], pc := 0x5F0#12, cycles := 16 } := by decide

/-- Vector "JMS at 0xFFE, return wraps (R112)". -/
theorem test_step_jms_return_wraps : nextState (step
    (prog 0xFFE [0x53, 0x45])) =
    some { prog 0xFFE [0x53, 0x45] with stk := [0x000#12], pc := 0x345#12, cycles := 16 } := by decide

/-- Vector "JMS with full stack (R112)". -/
theorem test_step_jms_full_stack : nextState (step
    ({ prog 0x040 [0x50, 0x10] with stk := [0x002#12, 0x012#12, 0x022#12] })) =
    some { prog 0x040 [0x50, 0x10] with stk := [0x002#12, 0x012#12, 0x022#12], pc := 0x040#12, status := .faulted .stackOverflow } := by decide

/-- Vector "BBL 0, depth 3 (R113)". -/
theorem test_step_bbl_depth_3 : nextState (step
    ({ prog 0x300 [0xC0] with stk := [0x002#12, 0x012#12, 0x022#12], acc := 7#4 })) =
    some { prog 0x300 [0xC0] with stk := [0x002#12, 0x012#12], acc := 0#4, pc := 0x022#12, cycles := 8 } := by decide

/-- Vector "BBL 5, empty stack (R113)". -/
theorem test_step_bbl_empty : nextState (step
    ({ prog 0x002 [0xC5] with acc := 3#4 })) =
    some { prog 0x002 [0xC5] with acc := 3#4, pc := 0x002#12, status := .faulted .stackUnderflow } := by decide

/-- Vector "JIN 4 at 0x1FF (R114)". -/
theorem test_step_jin_last_byte_of_page : nextState (step
    ({ prog 0x1FF [0x35] with regs := xs [(4, 2), (5, 0)] })) =
    some { prog 0x1FF [0x35] with pc := 0x120#12, regs := xs [(4, 2), (5, 0)], cycles := 8 } := by decide

/-- Vector "JIN 2 to itself (R114)". -/
theorem test_step_jin_itself : nextState (step
    ({ prog 0x044 [0x33] with regs := xs [(2, 4), (3, 4)] })) =
    some { prog 0x044 [0x33] with pc := 0x044#12, regs := xs [(2, 4), (3, 4)], cycles := 8 } := by decide

/-- Vector "ISZ 2 taken, page of opcode (R115, D4)". -/
theorem test_step_isz_taken_page_of_opcode : nextState (step
    ({ prog 0x5FE [0x72, 0x30] with regs := xs [(2, 15)] })) =
    some { prog 0x5FE [0x72, 0x30] with pc := 0x530#12, regs := xs [(2, 0)], cycles := 16 } := by decide

/-- Vector "ISZ 3 not taken at 0xFFE, wrap (R115)". -/
theorem test_step_isz_not_taken_wraps : nextState (step
    ({ prog 0xFFE [0x73, 0x30] with regs := xs [(3, 1)] })) =
    some { prog 0xFFE [0x73, 0x30] with pc := 0x000#12, regs := xs [(3, 2)], cycles := 16 } := by decide

/-- Vector "JCN AZ taken (R116)". -/
theorem test_step_jcnAZ_taken : nextState (step
    ({ prog 0x100 [0x14, 0x20] with acc := 0#4 })) =
    some { prog 0x100 [0x14, 0x20] with acc := 0#4, pc := 0x120#12, cycles := 16 } := by decide

/-- Vector "JCN AZ not taken (R116)". -/
theorem test_step_jcnAZ_not : nextState (step
    ({ prog 0x100 [0x14, 0x20] with acc := 1#4 })) =
    some { prog 0x100 [0x14, 0x20] with acc := 1#4, pc := 0x102#12, cycles := 16 } := by decide

/-- Vector "JCN AN taken (R116)". -/
theorem test_step_jcnAN_taken : nextState (step
    ({ prog 0x100 [0x1C, 0x20] with acc := 1#4 })) =
    some { prog 0x100 [0x1C, 0x20] with acc := 1#4, pc := 0x120#12, cycles := 16 } := by decide

/-- Vector "JCN AN not taken (R116)". -/
theorem test_step_jcnAN_not : nextState (step
    ({ prog 0x100 [0x1C, 0x20] with acc := 0#4 })) =
    some { prog 0x100 [0x1C, 0x20] with acc := 0#4, pc := 0x102#12, cycles := 16 } := by decide

/-- Vector "JCN C1 taken (R116)". -/
theorem test_step_jcnC1_taken : nextState (step
    ({ prog 0x300 [0x12, 0x80] with cy := 1#1 })) =
    some { prog 0x300 [0x12, 0x80] with cy := 1#1, pc := 0x380#12, cycles := 16 } := by decide

/-- Vector "JCN C1 not taken (R116)". -/
theorem test_step_jcnC1_not : nextState (step
    ({ prog 0x300 [0x12, 0x80] with cy := 0#1 })) =
    some { prog 0x300 [0x12, 0x80] with cy := 0#1, pc := 0x302#12, cycles := 16 } := by decide

/-- Vector "JCN C0 taken (R116)". -/
theorem test_step_jcnC0_taken : nextState (step
    ({ prog 0x009 [0x1A, 0x0D] with cy := 0#1 })) =
    some { prog 0x009 [0x1A, 0x0D] with cy := 0#1, pc := 0x00D#12, cycles := 16 } := by decide

/-- Vector "JCN C0 not taken (R116)". -/
theorem test_step_jcnC0_not : nextState (step
    ({ prog 0x009 [0x1A, 0x0D] with cy := 1#1 })) =
    some { prog 0x009 [0x1A, 0x0D] with cy := 1#1, pc := 0x00B#12, cycles := 16 } := by decide

/-- Vector "SRC 14 (R120)". -/
theorem test_step_src_14 : nextState (step
    ({ prog 0x000 [0x2F] with regs := xs [(14, 15), (15, 15)] })) =
    some { prog 0x000 [0x2F] with dp := 0xFF#8, pc := 0x001#12, regs := xs [(14, 15), (15, 15)], cycles := 8 } := by decide

/-- Vector "SRC 0, pair zero (R120)". -/
theorem test_step_src_zero : nextState (step
    ({ prog 0x000 [0x21] with dp := 0x77#8 })) =
    some { prog 0x000 [0x21] with dp := 0x00#8, pc := 0x001#12, cycles := 8 } := by decide

/-- Vector "WRM (R121)". -/
theorem test_step_wrm : nextState (step
    ({ prog 0x000 [0xE0] with dp := 0x35#8, acc := 6#4 })) =
    some { prog 0x000 [0xE0] with dp := 0x35#8, acc := 6#4, pc := 0x001#12, ram := [(0x35, 6#4)], cycles := 8 } := by decide

/-- Vector "WRM to 0xFF (R121)". -/
theorem test_step_wrm_top : nextState (step
    ({ prog 0x000 [0xE0] with dp := 0xFF#8, acc := 15#4, cy := 1#1 })) =
    some { prog 0x000 [0xE0] with dp := 0xFF#8, acc := 15#4, cy := 1#1, pc := 0x001#12, ram := [(0xff, 15#4)], cycles := 8 } := by decide

/-- Vector "RDM (R122)". -/
theorem test_step_rdm : nextState (step
    ({ prog 0x000 [0xE9] with dp := 0x35#8, ram := [(0x35, 6#4)] })) =
    some { prog 0x000 [0xE9] with dp := 0x35#8, acc := 6#4, pc := 0x001#12, ram := [(0x35, 6#4)], cycles := 8 } := by decide

/-- Vector "RDM unwritten entry (R122)". -/
theorem test_step_rdm_unwritten : nextState (step
    ({ prog 0x000 [0xE9] with dp := 0x80#8, acc := 9#4 })) =
    some { prog 0x000 [0xE9] with dp := 0x80#8, acc := 0#4, pc := 0x001#12, cycles := 8 } := by decide

/-- Vector "ADM (R123)". -/
theorem test_step_adm_carry : nextState (step
    ({ prog 0x000 [0xEB] with acc := 9#4, cy := 1#1, dp := 0x10#8, ram := [(0x10, 8#4)] })) =
    some { prog 0x000 [0xEB] with acc := 2#4, cy := 1#1, dp := 0x10#8, pc := 0x001#12, ram := [(0x10, 8#4)], cycles := 8 } := by decide

/-- Vector "ADM no carry (R123)". -/
theorem test_step_adm_no_carry : nextState (step
    ({ prog 0x000 [0xEB] with acc := 2#4, cy := 0#1, dp := 0x10#8, ram := [(0x10, 3#4)] })) =
    some { prog 0x000 [0xEB] with acc := 5#4, cy := 0#1, dp := 0x10#8, pc := 0x001#12, ram := [(0x10, 3#4)], cycles := 8 } := by decide

/-- Vector "SBM borrow (R124)". -/
theorem test_step_sbm_borrow : nextState (step
    ({ prog 0x000 [0xE8] with acc := 4#4, cy := 1#1, dp := 0x35#8, ram := [(0x35, 6#4)] })) =
    some { prog 0x000 [0xE8] with acc := 14#4, cy := 0#1, dp := 0x35#8, pc := 0x001#12, ram := [(0x35, 6#4)], cycles := 8 } := by decide

/-- Vector "SBM borrow in (R124)". -/
theorem test_step_sbm_borrow_in : nextState (step
    ({ prog 0x000 [0xE8] with acc := 9#4, cy := 0#1, dp := 0x35#8, ram := [(0x35, 6#4)] })) =
    some { prog 0x000 [0xE8] with acc := 2#4, cy := 1#1, dp := 0x35#8, pc := 0x001#12, ram := [(0x35, 6#4)], cycles := 8 } := by decide

/-- Vector "0x00 illegal (R53)". -/
theorem test_step_illegal_zero : nextState (step
    ({ prog 0x005 [0x00] with acc := 4#4 })) =
    some { prog 0x005 [0x00] with acc := 4#4, pc := 0x005#12, status := .faulted .illegalOpcode } := by decide

/-- Vector "JCN 0x11 illegal condition (R53)". -/
theorem test_step_illegal_condition : nextState (step
    ({ prog 0x100 [0x11, 0x20] with acc := 0#4 })) =
    some { prog 0x100 [0x11, 0x20] with acc := 0#4, pc := 0x100#12, status := .faulted .illegalOpcode } := by decide

/-- Vector "0xFF illegal (R57)". -/
theorem test_step_illegal_top : nextState (step
    (prog 0xFFF [0xFF])) =
    some { prog 0xFFF [0xFF] with pc := 0xFFF#12, status := .faulted .illegalOpcode } := by decide

/-! ### Host interface and ports, from 95_test_vectors.md sections 1 and 2.7 -/

/-- L1-1 step 4: a faulted core answers the same fault and changes nothing. -/
theorem test_step_on_faulted_core :
    requestStep { prog 2 [0xC0] with status := .faulted .stackUnderflow } =
      ({ prog 2 [0xC0] with status := .faulted .stackUnderflow }, .fault .stackUnderflow) := by decide

theorem test_step_on_halted_core :
    requestStep { State.reset with status := .halted } = ({ State.reset with status := .halted }, .halted) := by decide

theorem test_halt_on_faulted_core :
    requestHalt { State.reset with status := .faulted .illegalOpcode } =
      { State.reset with status := .faulted .illegalOpcode } := by decide

theorem test_reset_after_fault :
    serve (.reset [0xD5#8]) { State.reset with acc := 3#4, ram := [(7, 1#4)], status := .faulted .stackOverflow } =
      ({ State.reset with rom := [(0, 0xD5#8)] }, .done) := by decide

/-- A completed step is answered with its cost, a faulting one with its kind. -/
theorem test_step_replies :
    (requestStep (prog 0 [0x22, 0x5A])).2 = .cost 16 ∧ (requestStep (prog 0 [0xD5])).2 = .cost 8 ∧
      (requestStep (prog 0 [0xC5])).2 = .fault .stackUnderflow := by decide

/-- The report of the full-stack `JMS` vector: code 0, the address of the `JMS`, its two bytes (R130). -/
theorem test_fault_report :
    State.faultReport { prog 0x040 [0x50, 0x10] with status := .faulted .stackOverflow } =
      some (0, 0x040#12, [0x50#8, 0x10#8]) := by decide

/-- `FIN 2` with pair 0 = 0xF0: one fetch read, then one data read; `ADM` reads `RAM[DP]` (R32, R36). -/
theorem test_ports :
    progReads { prog 0x300 [0x32] with regs := xs [(0, 15)] } = [0x300#12, 0x0F0#12] ∧
      progReads (prog 0xFFF [0x24, 0xC3]) = [0xFFF#12, 0x000#12] ∧
      stepDataAccess { prog 0 [0xEB] with dp := 0x10#8 } = .read 0x10#8 := by decide

/-! ### Memory -/

/-- Writing 0 removes the entry; entries stay sorted. -/
theorem test_memory_write_canonical :
    Memory.write [(3, 1#4), (9, 2#4)] 5 7#4 = [(3, 1#4), (5, 7#4), (9, 2#4)] ∧
      Memory.write [(3, 1#4), (9, 2#4)] 9 0#4 = [(3, 1#4)] ∧ Memory.write [(3, 1#4)] 9 (0#4) = [(3, 1#4)] := by decide

theorem test_memory_wf_refuses :
    Memory.wf 256 [(3, 0#4)] = false ∧ Memory.wf 256 [(3, 1#4), (3, 2#4)] = false ∧ Memory.wf 256 [(256, 1#4)] = false := by
  decide

/-! ### Witnesses: the hypotheses of the statements are met -/

/-- A full-stack `JMS` at `pc`. -/
def fullJms : State := { prog 0x040 [0x50, 0x10] with stk := [0x002#12, 0x012#12, 0x022#12] }

theorem witness_LengthKnownFromOpcodeByte :
    decodeBytes [0xD5#8, 0x60#8] = .ok (.ldm 5#4, [0x60#8]) ∧ decodeBytes [0x2E#8, 0x00#8] = .ok (.fim 14 0#8, []) := by
  decide

theorem witness_DecodeOfEncode : (Instr.jms 4095).wellFormed = true ∧ (Instr.fim 14 0xFF#8).wellFormed = true := by decide

theorem witness_EncodeOfDecode : decodeBytes [0x5F#8, 0xFF#8, 0x01#8] = .ok (.jms 4095, [0x01#8]) := by decide

theorem witness_AssembleOfToAsm : (Instr.isz 15 0xFF#8).wellFormed = true := by decide

theorem witness_StepRunsDecodedInstruction :
    (prog 0xFFF [0x24, 0xC3]).Running ∧
      decodeBytes [(prog 0xFFF [0x24, 0xC3]).progRead 0xFFF#12, (prog 0xFFF [0x24, 0xC3]).progRead (0xFFF#12 + 1#12)] =
        .ok (.fim 4 0xC3#8, []) := by decide

theorem witness_IllegalOpcodeStopsTheCore :
    State.reset.Running ∧ decodeOpcode (State.reset.progRead State.reset.pc) = .illegal := by decide

theorem witness_StepIsAtomicAndTotal : (prog 0 [0xD5]).Running ∧ fullJms.Running ∧ State.reset.Running := by decide

theorem witness_FaultOfAStepHasItsCause :
    (∃ t, State.reset.Running ∧ step State.reset = .next t ∧ t.status = .faulted .illegalOpcode) ∧
      (∃ t, fullJms.Running ∧ step fullJms = .next t ∧ t.status = .faulted .stackOverflow) ∧
      (∃ t, (prog 0 [0xC5]).Running ∧ step (prog 0 [0xC5]) = .next t ∧ t.status = .faulted .stackUnderflow) ∧
      ∃ t, (prog 0 [0xD5]).Running ∧ step (prog 0 [0xD5]) = .next t ∧ t.status = .running :=
  ⟨⟨_, by decide, rfl, by decide⟩, ⟨_, by decide, rfl, by decide⟩, ⟨_, by decide, rfl, by decide⟩,
    ⟨_, by decide, rfl, by decide⟩⟩

theorem witness_FaultReportNamesTheInstruction :
    (∃ t, fullJms.Running ∧ step fullJms = .next t ∧ t.status = .faulted .stackOverflow) ∧
      ∃ t, (prog 0 [0xC5]).Running ∧ step (prog 0 [0xC5]) = .next t ∧ t.status = .faulted .stackUnderflow :=
  ⟨⟨_, by decide, rfl, by decide⟩, ⟨_, by decide, rfl, by decide⟩⟩

theorem witness_FaultIsStickyUntilReset :
    ({ State.reset with status := .faulted .illegalOpcode } : State).status = .faulted .illegalOpcode ∧
      (∀ img, Request.reset img ∉ [Request.step, .halt, .inspect, .step]) ∧ ([] : List Byte).length ≤ 4096 := by simp

theorem witness_HaltedCoreKeepsItsState :
    ({ State.reset with status := .halted } : State).status = .halted ∧
      ∀ img, Request.reset img ∉ [Request.step, .halt, .inspect] := by simp

theorem witness_StoppedCoreAnswersItsStatus :
    ({ State.reset with status := .faulted .stackOverflow } : State).status = .faulted .stackOverflow ∧
      ({ State.reset with status := .halted } : State).status = .halted := by decide

theorem witness_StepReplyIsCostOrFault : (prog 0 [0x40, 0x00]).Running ∧ fullJms.Running := by decide

theorem witness_ResetLoadsImageAndClears :
    (List.replicate 4096 0xD5#8).length ≤ 4096 ∧ 4096 < (List.replicate 4097 0xD5#8).length := by
  rw [List.length_replicate, List.length_replicate]
  decide

theorem witness_OnlyResetSetsRunning :
    ¬ ({ State.reset with status := .halted } : State).Running ∧
      (serve (.reset [0xD5#8]) { State.reset with status := .halted }).1.Running := by decide

theorem witness_StepKeepsInvariant :
    ∃ t, ({ prog 0 [0xE0] with dp := 0xFF#8, acc := 15#4 } : State).Inv ∧
      step { prog 0 [0xE0] with dp := 0xFF#8, acc := 15#4 } = .next t := ⟨_, by decide, rfl⟩

theorem witness_ProgramStoreNeverChangesWhileRunning :
    (∃ t, exec .wrm { State.reset with acc := 6#4 } = .next t) ∧ ∀ img, Request.step ≠ .reset img := ⟨⟨_, rfl⟩, by simp⟩

theorem witness_EveryTermHasANextState : (Instr.jin 3).wellFormed = false ∧ (Instr.jun 4096).wellFormed = false := by decide

theorem witness_RegistersChangeOnlyByTheirWriters :
    (∃ t, exec (.xch 3) { State.reset with acc := 7#4 } = .next t) ∧ 4 ∉ regWrites (.xch 3) ∧
      (∃ t, exec (.fim 2 0x5A#8) State.reset = .next t) ∧ 4 ∉ regWrites (.fim 2 0x5A#8) :=
  ⟨⟨_, rfl⟩, by decide, ⟨_, rfl⟩, by decide⟩

theorem witness_AccAndCarryChangeOnlyByTheirWriters :
    (∃ t, exec (.inc 3) State.reset = .next t) ∧ writesAcc (.inc 3) = false ∧ writesCy (.inc 3) = false :=
  ⟨⟨_, rfl⟩, by decide, by decide⟩

theorem witness_DpAndStackChangeOnlyByTheirWriters :
    (∃ t, exec .wrm State.reset = .next t) ∧ writesDp .wrm = false ∧ writesStk .wrm = false ∧
      (∃ t, exec (.jms 16) State.reset = .next t ∧ t.stk = [0x002#12]) ∧
      ∃ t, exec (.bbl 9#4) { State.reset with stk := [0x002#12] } = .next t ∧ t.stk = [] :=
  ⟨⟨_, rfl⟩, by decide, by decide, ⟨_, rfl, by decide⟩, ⟨_, rfl, by decide⟩⟩

theorem witness_DataStoreChangesOnlyByWrmAtDp :
    ∃ t, ({ State.reset with acc := 6#4, dp := 0x35#8 } : State).Inv ∧
      exec .wrm { State.reset with acc := 6#4, dp := 0x35#8 } = .next t ∧ (0x36#8 ≠ 0x35#8) := ⟨_, by decide, rfl, by decide⟩

theorem witness_PcAndCyclesAtTheEndOfAStep :
    (∃ t, exec .iac { State.reset with pc := 0xFFF#12 } = .next t ∧ mayAssignPc .iac = false ∧ t.pc = 0#12) ∧
      ∃ t, exec (.bbl 0#4) State.reset = .next t ∧ t.status = .faulted .stackUnderflow :=
  ⟨⟨_, rfl, by decide, by decide⟩, ⟨_, rfl, by decide⟩⟩

theorem witness_AtMostTwoProgramReads : (prog 0x345 [0x36]).Running ∧ (prog 0x345 [0x36]).fetchDecode = some (.fin 6) := by
  decide

/-- A store that differs from the program's own only where the step does not look. -/
theorem witness_StepSeesOnlyItsProgramReads :
    progReads (prog 0 [0xD5]) = [0#12] ∧
      Memory.read [(0, 0xD5#8), (9, 0x11#8)] 0 = (prog 0 [0xD5]).rom.read 0 ∧ [(0, 0xD5#8), (9, 0x11#8)] ≠ (prog 0 [0xD5]).rom := by
  decide

theorem witness_StepSeesOnlyItsDataRead :
    stepDataAccess { prog 0 [0xE9] with dp := 0x35#8 } = .read 0x35#8 ∧
      Memory.read [(0x35, 0#4), (0x36, 9#4)] 0x35 = (prog 0 [0xE9]).ram.read 0x35 ∧
      stepDataAccess { prog 0 [0xE0] with dp := 0x35#8, acc := 6#4 } = .write 0x35#8 6#4 := by decide

theorem witness_PairHoldsHighNibbleInEvenRegister :
    (14 < 16 ∧ 14 % 2 = 0) ∧ decodeBytes [0x2E#8, 0x5A#8] = .ok (.fim 14 0x5A#8, []) ∧
      decodeBytes [0x30#8] = .ok (.fin 0, []) ∧ decodeBytes [0x3F#8] = .ok (.jin 14, []) ∧
      decodeBytes [0x21#8] = .ok (.src 0, []) ∧ 15 % 2 = 1 := by decide

/-! The register and pair hypotheses at both ends of their range. -/

theorem witness_LoadsSetTheAccumulator : 0 < 16 ∧ 15 < 16 := by decide

theorem witness_XchSwapsAccAndRegister : 0 < 16 ∧ 15 < 16 := by decide

theorem witness_LoadExchangeLoadRestores : 0 < 16 ∧ 15 < 16 := by decide

theorem witness_AddsAccumulateWithCarry : 0 < 16 ∧ 15 < 16 := by decide

theorem witness_SubsSubtractWithBorrow : 0 < 16 ∧ 15 < 16 := by decide

theorem witness_IncWrapsTheRegister : 0 < 16 ∧ 15 < 16 := by decide

theorem witness_FimLoadsThePair : (0 < 16 ∧ 0 % 2 = 0) ∧ (14 < 16 ∧ 14 % 2 = 0) := by decide

theorem witness_FinLoadsThePairFromPageZero : (0 < 16 ∧ 0 % 2 = 0) ∧ (14 < 16 ∧ 14 % 2 = 0) := by decide

theorem witness_SrcAddressesAndRdmReads : (0 < 16 ∧ 0 % 2 = 0) ∧ (14 < 16 ∧ 14 % 2 = 0) := by decide

theorem witness_UnconditionalJumpsAssignPc : 4095 < 4096 ∧ (14 < 16 ∧ 14 % 2 = 0) := by decide

theorem witness_JmsPushesTheReturnAddress :
    0xFFF < 4096 ∧ ({ State.reset with stk := [0x002#12, 0x102#12] } : State).stk.length < 3 := by decide

theorem witness_BblReturnsWithAValue :
    ({ State.reset with stk := [0x002#12, 0x012#12, 0x022#12] } : State).stk = [0x002#12, 0x012#12] ++ [0x022#12] := by decide

theorem witness_StackFaultsWriteOnlyStatus : 0x010 < 4096 ∧ 3 ≤ fullJms.stk.length ∧ State.reset.stk = [] := by decide

theorem witness_CallThenReturnRestoresPc :
    (State.place (prog 0 [0x50, 0x10]) [(0x10, 0xC9)]).Running ∧
      (State.place (prog 0 [0x50, 0x10]) [(0x10, 0xC9)]).stk.length < 3 ∧
      (State.place (prog 0 [0x50, 0x10]) [(0x10, 0xC9)]).fetchDecode = some (.jms 0x10) ∧
      decodeOpcode ((State.place (prog 0 [0x50, 0x10]) [(0x10, 0xC9)]).progRead (BitVec.ofNat 12 0x10)) = .oneByte (.bbl 9#4) := by
  decide

/-- Both outcomes of `ISZ`, at the last register. -/
theorem witness_IszIncrementsAndJumpsOnZero :
    15 < 16 ∧ (({ State.reset with regs := xs [(15, 15)] } : State).reg 15).toNat = 15 ∧ (State.reset.reg 15).toNat ≠ 15 := by decide

theorem witness_SelfJumpIdlesForever :
    (prog 0x00A [0x40, 0x0A]).Running ∧
      (prog 0x00A [0x40, 0x0A]).fetchDecode = some (.jun (prog 0x00A [0x40, 0x0A]).pc.toNat) := by decide

theorem witness_WrmStoresAtDp :
    State.reset.Inv ∧ ({ State.reset with dp := 0xFF#8, acc := 15#4, ram := [(0xFF, 3#4)] } : State).Inv := by decide

/-- The empty list between, and one that overwrites `A`, `CY` and a register. -/
theorem witness_StoreThenLoadReturnsTheValue :
    ({ State.reset with acc := 6#4, dp := 0x35#8 } : State).Inv ∧
      (∀ i ∈ ([] : List Instr), i ≠ .wrm ∧ ∀ p, i ≠ .src p) ∧
      ∀ i ∈ [Instr.ldm 9#4, .stc, .xch 3, .sbm], i ≠ .wrm ∧ ∀ p, i ≠ .src p := ⟨by decide, by simp, by simp⟩

end Sys2Proof.Machine
end

section
/-! PROOFS. The program store never changes while the core runs (R44): a postcondition rule for each way an instruction can
end, then the frame of the program store through `exec`, a step and a host request. -/

namespace Sys2Proof.Machine

/-- A postcondition of an answer: whatever next state it gives meets `P`. -/
def NextMeets (P : State → Prop) (r : Result) : Prop := ∀ t, r = .next t → P t

theorem NextMeets.next {P : State → Prop} {u : State} (h : P u) : NextMeets P (.next u) := by
  intro t ht
  cases ht
  exact h

theorem NextMeets.raise {P : State → Prop} {k : Fault} {s : State} (h : P (s.setStatus (.faulted k))) :
    NextMeets P (raise k s) := .next h

/-- The operand check adds one next state to those of the instruction, the one of `PreconditionViolation`. -/
theorem NextMeets.checked {P : State → Prop} {ok : Bool} {s : State} {r : Result} (hr : NextMeets P r)
    (hs : P (s.setStatus (.faulted .preconditionViolation))) : NextMeets P (checked ok s r) := by
  intro t ht
  obtain ⟨-, h⟩ | ⟨-, rfl⟩ := checked_cases ht
  · exact hr t h
  · exact hs

/-! ### The frame of the program store -/

/-- `JMS` writes the call stack, `pc` and `cycles`, or takes a fault (R112). -/
theorem execJms_keeps_rom (a : Nat) (s : State) : NextMeets (fun t => t.rom = s.rom) (execJms a s) := by
  unfold execJms
  refine .checked ?_ rfl
  obtain ⟨-, hpush⟩ | ⟨-, hpush⟩ := push_cases s (returnAddr s) <;> rw [hpush]
  · exact .next rfl
  · exact .raise rfl

/-- `BBL` writes the call stack, `A`, `pc` and `cycles`, or takes a fault (R113). -/
theorem execBbl_keeps_rom (imm : Nibble) (s : State) : NextMeets (fun t => t.rom = s.rom) (execBbl imm s) := by
  unfold execBbl
  obtain ⟨k, v, -, hpop⟩ | ⟨-, hpop⟩ := pop_cases s <;> rw [hpop]
  · exact .next rfl
  · exact .raise rfl

/-- No instruction writes the program store, `WRM` among them: it writes the data store (R35, R44). -/
theorem exec_keeps_rom (i : Instr) (s : State) : NextMeets (fun t => t.rom = s.rom) (exec i s) := by
  cases i with
  | ldm | iac | dac | clc | stc | cmc | clb | cma | ral | rar | tcc => exact .next rfl
  | wrm | rdm | adm | sbm => exact .next rfl
  | jcnC1 | jcnAZ | jcnC0 | jcnAN => exact .next rfl
  | ld | xch | fim | fin | add | sub | inc | jun | jin | isz | src => exact .checked (.next rfl) rfl
  | jms a => exact execJms_keeps_rom a s
  | bbl imm => exact execBbl_keeps_rom imm s

theorem step_keeps_rom (s : State) : NextMeets (fun t => t.rom = s.rom) (step s) := by
  intro t h
  obtain ⟨-, ⟨-, rfl⟩ | ⟨i, -, hexec⟩⟩ := step_cases h
  · exact State.setStatus_rom s _
  · exact exec_keeps_rom i s t hexec

theorem requestStep_keeps_rom (s : State) : (requestStep s).1.rom = s.rom := by
  unfold requestStep
  split
  · exact step_keeps_rom s _ ‹_›
  · rfl
  · rfl

theorem requestHalt_keeps_rom (s : State) : (requestHalt s).rom = s.rom := by
  unfold requestHalt
  split <;> rfl

/-- The host reaches the program store by a reset alone (R44, R151). -/
theorem serve_keeps_rom {q : Request} (hq : ∀ img, q ≠ .reset img) (s : State) : (serve q s).1.rom = s.rom := by
  cases q with
  | reset img => exact absurd rfl (hq img)
  | step => exact requestStep_keeps_rom s
  | halt => exact requestHalt_keeps_rom s
  | inspect => rfl

theorem progRead_eq_of_rom_eq {s t : State} (h : t.rom = s.rom) (a : Addr) : t.progRead a = s.progRead a :=
  congrArg (Memory.read · a.toNat) h

/-- The fetch reads the program store and `pc`, never the data store (R31, R69). -/
@[simp] theorem State.setRam_fetchDecode (s : State) (m : Memory 4) : (s.setRam m).fetchDecode = s.fetchDecode := rfl

/-- Settles O23: every instruction and every request but a reset leaves the whole program store as it is, and the fetch
reads nothing else of memory. -/
theorem programStoreNeverChangesWhileRunning : Obligations.ProgramStoreNeverChangesWhileRunning := by
  unfold Obligations.ProgramStoreNeverChangesWhileRunning
  refine ⟨?_, ?_, State.setRam_fetchDecode⟩
  · intro i s t h
    exact progRead_eq_of_rom_eq (exec_keeps_rom i s t h)
  · intro q s hq
    exact progRead_eq_of_rom_eq (serve_keeps_rom hq s)

end Sys2Proof.Machine
end

section
/-! PROOFS. Every opcode byte resolves (R54): the operand fields of any nibble are well formed, hence every admitted entry of
the opcode table is; then what `opcodeLength` and `decodeBytes` answer for each kind of entry. -/

namespace Sys2Proof

/-! ### The operand fields of a nibble are well formed -/

theorem regOk_regField (l : Nibble) : regOk (regField l) = true := decide_eq_true l.isLt

/-- The mask 0xE clears bit 0, so a decoded pair index is even (R58). -/
theorem pairOk_pairField (l : Nibble) : pairOk (pairField l) = true := by
  revert l
  decide

/-- Twelve bits stay within the program store (R30, R61). -/
theorem progAddrOk_append (ahi : Nibble) (b : Byte) : progAddrOk (ahi ++ b).toNat = true :=
  decide_eq_true (ahi ++ b).isLt

/-! ### Every entry of the opcode table is sound -/

/-- What R54 asks of an entry of the opcode table: a one-byte instruction is complete and well formed, a two-byte one is
well formed whatever operand byte follows. -/
def Decoded.Sound : Decoded → Prop
  | .illegal => True
  | .oneByte i => i.length = 1 ∧ i.wellFormed = true
  | .twoByte h => ∀ b, (h.complete b).wellFormed = true

theorem decodeCond_sound (l : Nibble) : (decodeCond l).Sound := by
  unfold decodeCond
  split
  case h_5 => trivial
  all_goals exact fun _ => rfl

theorem decodeRowE_sound (l : Nibble) : (decodeRowE l).Sound := by
  unfold decodeRowE
  split
  case h_5 => trivial
  all_goals exact ⟨rfl, rfl⟩

theorem decodeRowF_sound (l : Nibble) : (decodeRowF l).Sound := by
  unfold decodeRowF
  split
  case h_11 => trivial
  all_goals exact ⟨rfl, rfl⟩

theorem decodeNibbles_sound (h l : Nibble) : (decodeNibbles h l).Sound := by
  unfold decodeNibbles
  split
  case h_1 => exact decodeCond_sound l
  case h_2 => -- SRC, FIM
    split
    · exact ⟨rfl, pairOk_pairField l⟩
    · exact fun _ => pairOk_pairField l
  case h_3 => -- JIN, FIN
    split <;> exact ⟨rfl, pairOk_pairField l⟩
  case h_4 | h_5 => exact progAddrOk_append l -- JUN, JMS
  case h_7 => exact fun _ => regOk_regField l -- ISZ
  case h_6 | h_8 | h_9 | h_10 | h_11 => exact ⟨rfl, regOk_regField l⟩ -- INC, ADD, SUB, LD, XCH
  case h_12 | h_13 => exact ⟨rfl, rfl⟩ -- BBL, LDM
  case h_14 => exact decodeRowE_sound l
  case h_15 => exact decodeRowF_sound l
  case h_16 => trivial

theorem decodeOpcode_sound (o : Byte) : (decodeOpcode o).Sound := decodeNibbles_sound (hiNibble o) (loNibble o)

/-! ### Length and cost -/

@[simp] theorem TwoByte.length_complete (h : TwoByte) (b : Byte) : (h.complete b).length = 2 := by
  cases h <;> rfl

theorem Format.cycleCost_length (f : Format) : cycleCost f.length = if f.length = 1 then 8 else 16 := by
  cases f <;> rfl

/-- Every instruction has one byte and costs 8 cycles, or has two and costs 16 (R71). -/
theorem Instr.cost_eq (i : Instr) : i.cost = if i.length = 1 then 8 else 16 := i.format.cycleCost_length

/-! ### What the decoder of a byte sequence answers for each kind of opcode byte -/

section
variable {o : Byte}

theorem opcodeLength_of_illegal (hd : decodeOpcode o = .illegal) : opcodeLength o = none := by
  simp [opcodeLength, hd]

theorem opcodeLength_of_oneByte {i : Instr} (hd : decodeOpcode o = .oneByte i) : opcodeLength o = some 1 := by
  simp [opcodeLength, hd]

theorem opcodeLength_of_twoByte {h : TwoByte} (hd : decodeOpcode o = .twoByte h) : opcodeLength o = some 2 := by
  simp [opcodeLength, hd]

theorem decodeBytes_of_illegal (hd : decodeOpcode o = .illegal) (rest : List Byte) :
    decodeBytes (o :: rest) = .error (.illegalOpcode o) := by
  simp [decodeBytes, hd]

theorem decodeBytes_of_oneByte {i : Instr} (hd : decodeOpcode o = .oneByte i) (rest : List Byte) :
    decodeBytes (o :: rest) = .ok (i, rest) := by
  simp [decodeBytes, hd]

theorem decodeBytes_of_twoByte {h : TwoByte} (hd : decodeOpcode o = .twoByte h) (b : Byte) (rest : List Byte) :
    decodeBytes (o :: b :: rest) = .ok (h.complete b, rest) := by
  simp [decodeBytes, hd]

end

/-- Settles O1, by the three kinds of entry an opcode byte decodes to: the entry's soundness gives the operands, and its
kind the length and the bytes left over. -/
theorem opcodeDispatchResolvesEveryByte : Obligations.OpcodeDispatchResolvesEveryByte := by
  unfold Obligations.OpcodeDispatchResolvesEveryByte
  intro o b rest
  have hsound := decodeOpcode_sound o
  cases hd : decodeOpcode o with
  | illegal => exact .inl ⟨opcodeLength_of_illegal hd, rfl, decodeBytes_of_illegal hd _⟩
  | oneByte i =>
    obtain ⟨hlen, hwf⟩ : i.length = 1 ∧ i.wellFormed = true := by rwa [hd] at hsound
    refine .inr ⟨i, ?_, nofun, hwf, i.cost_eq, ?_⟩
    · rw [hlen, opcodeLength_of_oneByte hd]
    · rw [hlen, decodeBytes_of_oneByte hd]
      rfl
  | twoByte h =>
    have hwf : ∀ b, (h.complete b).wellFormed = true := by rwa [hd] at hsound
    refine .inr ⟨h.complete b, ?_, nofun, hwf b, Instr.cost_eq _, ?_⟩
    · rw [h.length_complete, opcodeLength_of_twoByte hd]
    · rw [h.length_complete, decodeBytes_of_twoByte hd]
      rfl

end Sys2Proof
end

section
/-! PROOFS. The 4-bit add with carry as arithmetic on numbers (R90): one rule for its result and one for its carry out. -/

namespace Sys2Proof.Machine

/-- A nibble keeps a number modulo 16. -/
theorem add4_result_toNat (a b : Nibble) (c : Bit) :
    (add4 a b c).1.toNat = (a.toNat + b.toNat + c.toNat) % 16 := BitVec.toNat_ofNat _ 4

/-- The carry out is set exactly when the sum does not fit a nibble. -/
theorem add4_carry_eq_one_iff (a b : Nibble) (c : Bit) :
    (add4 a b c).2 = 1#1 ↔ 15 < a.toNat + b.toNat + c.toNat := by
  unfold add4
  dsimp only
  split
  case isTrue hover => exact iff_of_true rfl hover
  case isFalse hfits => exact iff_of_false (by decide) hfits

/-- Settles O33: the rule for the result and the rule for the carry out. -/
theorem addWithCarryExact : Obligations.AddWithCarryExact := by
  unfold Obligations.AddWithCarryExact
  intro a b c
  exact ⟨add4_result_toNat a b c, add4_carry_eq_one_iff a b c⟩

end Sys2Proof.Machine
end

section
/-! PROOFS. What `exec` can answer, said once: an instruction takes the fault its checks find (R130, R132), or it writes
what its rule names and then `pc` and `cycles` (R70, R71). Every later proof about an instruction goes through these lemmas
and the frame of `effect`. -/

namespace Sys2Proof.Machine

/-! ### The three parts of an instruction -/

/-- The stack fault an instruction takes, if any (R16). -/
def stackFault (i : Instr) (s : State) : Option Fault :=
  match i with
  | .jms _ => if s.stk.length < 3 then none else some .stackOverflow
  | .bbl _ => if s.stk = [] then some .stackUnderflow else none
  | _ => none

/-- The fault an instruction takes: the operand check comes before the stack fault (R132). -/
def execFault (i : Instr) (s : State) : Option Fault :=
  if i.wellFormed then stackFault i s else some .preconditionViolation

/-- The target of a conditional in-page jump; none when it is not taken (R62). -/
def jumpIf (taken : Bool) (pc : Addr) (off : Byte) : Option Addr :=
  if taken then some (pageTarget pc off) else none

/-- The address a completed instruction assigns to `pc`, if it assigns one (R70, R110). -/
def target (i : Instr) (s : State) : Option Addr :=
  match i with
  | .jun a | .jms a => some (absTarget a)
  | .bbl _ => s.stk.getLast?
  | .jin p => some (pageTarget s.pc (s.pair p))
  | .isz r b => jumpIf (decide (inc4 (s.reg r) = 0#4)) s.pc b
  | .jcnC1 b => jumpIf (decide (s.cy = 1#1)) s.pc b
  | .jcnAZ b => jumpIf (decide (s.acc = 0#4)) s.pc b
  | .jcnC0 b => jumpIf (decide (s.cy = 0#1)) s.pc b
  | .jcnAN b => jumpIf (decide (s.acc ≠ 0#4)) s.pc b
  | _ => none

/-- What a completed instruction writes beside `pc` and `cycles`. -/
def effect (i : Instr) (s : State) : State :=
  match i with
  | .ldm d => s.setAcc d
  | .ld r => s.setAcc (s.reg r)
  | .xch r => (s.setAcc (s.reg r)).setReg r s.acc
  | .fim p b => s.setPair p b
  | .fin p => s.setPair p (s.progRead (finAddr s))
  | .add r => s.setAccCy (add4 s.acc (s.reg r) s.cy)
  | .sub r => s.setAccCy (sub4 s.acc (s.reg r) s.cy)
  | .inc r | .isz r _ => s.setReg r (inc4 (s.reg r))
  | .iac => s.setAccCy (iac4 s.acc)
  | .dac => s.setAccCy (dac4 s.acc)
  | .clc => s.setCy 0#1
  | .stc => s.setCy 1#1
  | .cmc => s.setCy (complCy s.cy)
  | .clb => s.setAccCy (0#4, 0#1)
  | .cma => s.setAcc (compl4 s.acc)
  | .ral => s.setAccCy (ral4 s.acc s.cy)
  | .rar => s.setAccCy (rar4 s.acc s.cy)
  | .tcc => s.setAccCy (s.cy.setWidth 4, 0#1)
  | .jms _ => s.setStk (s.stk ++ [returnAddr s])
  | .bbl d => (s.setStk s.stk.dropLast).setAcc d
  | .src p => s.setDp (s.pair p)
  | .wrm => s.memWrite s.dp s.acc
  | .rdm => s.setAcc (s.memRead s.dp)
  | .adm => s.setAccCy (add4 s.acc (s.memRead s.dp) s.cy)
  | .sbm => s.setAccCy (sub4 s.acc (s.memRead s.dp) s.cy)
  | .jun _ | .jin _ | .jcnC1 _ | .jcnAZ _ | .jcnC0 _ | .jcnAN _ => s

/-- The state after a completed instruction. -/
def completed (i : Instr) (s : State) : State := (effect i s).retire (target i s) i.length

/-! ### `exec` by its three parts -/

theorem checked_of_true {ok : Bool} (h : ok = true) (s : State) (r : Result) : checked ok s r = r := if_pos h

theorem checked_of_false {ok : Bool} (h : ok = false) (s : State) (r : Result) :
    checked ok s r = .next (s.setStatus (.faulted .preconditionViolation)) := by
  rw [h, checked_false]

theorem exec_illFormed {i : Instr} (h : i.wellFormed = false) (s : State) :
    exec i s = .next (s.setStatus (.faulted .preconditionViolation)) := by
  cases i with
  | ld | xch | fim | fin | add | sub | inc | jun | jms | jin | isz | src => exact checked_of_false h s _
  | _ => cases h

theorem execJms_full {a : Nat} {s : State} (ha : progAddrOk a = true) (h : ¬ s.stk.length < 3) :
    execJms a s = .next (s.setStatus (.faulted .stackOverflow)) := by
  rw [execJms, checked_of_true ha, push_full _ h]
  rfl

theorem execJms_room {a : Nat} {s : State} (ha : progAddrOk a = true) (h : s.stk.length < 3) :
    execJms a s = .next (completed (.jms a) s) := by
  rw [execJms, checked_of_true ha, push_ok _ h]
  rfl

theorem execBbl_empty {s : State} (d : Nibble) (h : s.stk = []) :
    execBbl d s = .next (s.setStatus (.faulted .stackUnderflow)) := by
  rw [execBbl, pop_empty s h]
  rfl

theorem completed_bbl {s : State} {k : List Addr} {v : Addr} (d : Nibble) (h : s.stk = k ++ [v]) :
    completed (.bbl d) s = ((s.setStk k).setAcc d).retire (some v) 1 := by
  have htarget : target (.bbl d) s = some v := by
    rw [target, h, List.getLast?_concat]
  have heffect : effect (.bbl d) s = (s.setStk k).setAcc d := by
    rw [effect, h, List.dropLast_concat]
  rw [completed, htarget, heffect]
  rfl

theorem execBbl_entry {s : State} (d : Nibble) (h : s.stk ≠ []) : execBbl d s = .next (completed (.bbl d) s) := by
  obtain ⟨k, v, hstk, hpop⟩ | ⟨hnil, -⟩ := pop_cases s
  · rw [execBbl, hpop, completed_bbl d hstk]
  · exact absurd hnil h

theorem exec_stackFault {i : Instr} {s : State} {k : Fault} (hwf : i.wellFormed = true) (h : stackFault i s = some k) :
    exec i s = .next (s.setStatus (.faulted k)) := by
  cases i with
  | jms a =>
    obtain ⟨hfull, hk⟩ := (Option.ite_none_left_eq_some ..).mp h
    cases hk
    exact execJms_full hwf hfull
  | bbl d =>
    obtain ⟨hnil, hk⟩ := (Option.ite_none_right_eq_some ..).mp h
    cases hk
    exact execBbl_empty d hnil
  | _ => cases h

/-- An instruction with well-formed operands and no stack fault completes. -/
theorem exec_completes {i : Instr} {s : State} (hwf : i.wellFormed = true) (h : stackFault i s = none) :
    exec i s = .next (completed i s) := by
  cases i with
  | ld | xch | fim | fin | add | sub | inc | jun | jin | isz | src => exact checked_of_true hwf s _
  | jms a => exact execJms_room hwf (by simpa [stackFault] using h)
  | bbl d => exact execBbl_entry d (by simpa [stackFault] using h)
  | _ => rfl

theorem execFault_of_wellFormed {i : Instr} (hwf : i.wellFormed = true) (s : State) : execFault i s = stackFault i s :=
  if_pos hwf

theorem execFault_of_illFormed {i : Instr} (hwf : i.wellFormed = false) (s : State) :
    execFault i s = some .preconditionViolation := if_neg (by simp [hwf])

theorem execFault_eq_none_iff {i : Instr} {s : State} :
    execFault i s = none ↔ i.wellFormed = true ∧ stackFault i s = none := by
  cases hwf : i.wellFormed <;> simp [execFault, hwf]

theorem exec_of_fault {i : Instr} {s : State} {k : Fault} (h : execFault i s = some k) :
    exec i s = .next (s.setStatus (.faulted k)) := by
  cases hwf : i.wellFormed with
  | true => exact exec_stackFault hwf (by rwa [execFault_of_wellFormed hwf] at h)
  | false =>
    rw [execFault_of_illFormed hwf] at h
    cases h
    exact exec_illFormed hwf s

theorem exec_of_noFault {i : Instr} {s : State} (h : execFault i s = none) : exec i s = .next (completed i s) := by
  obtain ⟨hwf, hstk⟩ := execFault_eq_none_iff.mp h
  exact exec_completes hwf hstk

/-- What an instruction can answer: the state with the fault in its status, or the completed one. -/
theorem exec_cases {i : Instr} {s t : State} (h : exec i s = .next t) :
    (∃ k, execFault i s = some k ∧ t = s.setStatus (.faulted k)) ∨ (execFault i s = none ∧ t = completed i s) := by
  cases hf : execFault i s with
  | none =>
    rw [exec_of_noFault hf] at h
    cases h
    exact .inr ⟨rfl, rfl⟩
  | some k =>
    rw [exec_of_fault hf] at h
    cases h
    exact .inl ⟨k, rfl, rfl⟩

/-- What holds after a fault and after the completed instruction holds after `exec`. -/
theorem exec_meets {P : State → Prop} {i : Instr} {s : State} (hfault : ∀ k, P (s.setStatus (.faulted k)))
    (hdone : P (completed i s)) : NextMeets P (exec i s) := by
  intro t ht
  obtain ⟨k, -, rfl⟩ | ⟨-, rfl⟩ := exec_cases ht
  · exact hfault k
  · exact hdone

theorem exec_next (i : Instr) (s : State) : ∃ t, exec i s = .next t := by
  cases hf : execFault i s with
  | none => exact ⟨_, exec_of_noFault hf⟩
  | some k => exact ⟨_, exec_of_fault hf⟩

/-! ### What `effect` leaves unchanged (spec decision D9) -/

@[simp] theorem effect_pc (i : Instr) (s : State) : (effect i s).pc = s.pc := by
  cases i <;> rfl

@[simp] theorem effect_cycles (i : Instr) (s : State) : (effect i s).cycles = s.cycles := by
  cases i <;> rfl

@[simp] theorem effect_status (i : Instr) (s : State) : (effect i s).status = s.status := by
  cases i <;> rfl

theorem effect_reg {i : Instr} {k : Nat} (h : k ∉ regWrites i) (s : State) : (effect i s).reg k = s.reg k := by
  cases i with
  | xch r | inc r | isz r _ => exact State.reg_setReg_ne _ _ (by simpa [regWrites] using h)
  | fim p _ | fin p =>
    obtain ⟨heven, hodd⟩ : k ≠ p ∧ k ≠ p + 1 := by simpa [regWrites] using h
    exact State.reg_setPair_ne _ _ heven hodd
  | _ => rfl

theorem effect_acc {i : Instr} (h : writesAcc i = false) (s : State) : (effect i s).acc = s.acc := by
  cases i with
  | ldm | ld | xch | add | sub | iac | dac | clb | cma | ral | rar | tcc | bbl | rdm | adm | sbm => cases h
  | _ => rfl

theorem effect_cy {i : Instr} (h : writesCy i = false) (s : State) : (effect i s).cy = s.cy := by
  cases i with
  | add | sub | iac | dac | clc | stc | cmc | clb | ral | rar | tcc | adm | sbm => cases h
  | _ => rfl

theorem effect_dp {i : Instr} (h : writesDp i = false) (s : State) : (effect i s).dp = s.dp := by
  cases i with
  | src => cases h
  | _ => rfl

theorem effect_stk {i : Instr} (h : writesStk i = false) (s : State) : (effect i s).stk = s.stk := by
  cases i with
  | jms | bbl => cases h
  | _ => rfl

theorem effect_ram {i : Instr} (h : i ≠ .wrm) (s : State) : (effect i s).ram = s.ram := by
  cases i with
  | wrm => exact absurd rfl h
  | _ => rfl

theorem target_of_not_mayAssignPc {i : Instr} (h : mayAssignPc i = false) (s : State) : target i s = none := by
  cases i with
  | jun | jms | bbl | jin | isz | jcnC1 | jcnAZ | jcnC0 | jcnAN => cases h
  | _ => rfl

end Sys2Proof.Machine
end

section
/-! PROOFS. Encoder and decoder undo each other (R50 to R65): the operand fields of an encoded nibble, then the rows of the
opcode table in both directions, then byte sequences; and the assembler lines of instructions (R66). -/

namespace Sys2Proof

/-! ### Lengths -/

theorem Instr.length_eq_one_or_two (i : Instr) : i.length = 1 ∨ i.length = 2 := by
  unfold Instr.length
  cases i.format <;> decide

/-- What the decoder of a byte sequence can answer: a one-byte instruction, or a two-byte one with its operand byte. -/
theorem decodeBytes_cases {o : Byte} {rest left : List Byte} {i : Instr} (h : decodeBytes (o :: rest) = .ok (i, left)) :
    (decodeOpcode o = .oneByte i ∧ rest = left) ∨
      ∃ t b, decodeOpcode o = .twoByte t ∧ rest = b :: left ∧ i = t.complete b := by
  cases hd : decodeOpcode o with
  | illegal =>
    rw [decodeBytes_of_illegal hd] at h
    cases h
  | oneByte j =>
    rw [decodeBytes_of_oneByte hd] at h
    cases h
    exact .inl ⟨rfl, rfl⟩
  | twoByte t =>
    cases rest with
    | nil => simp [decodeBytes, hd] at h
    | cons b rest =>
      rw [decodeBytes_of_twoByte hd] at h
      cases h
      exact .inr ⟨t, b, rfl, rfl, rfl⟩

/-- Only well-formed instructions are decoded. -/
theorem wellFormed_of_decodeBytes {bs rest : List Byte} {i : Instr} (h : decodeBytes bs = .ok (i, rest)) :
    i.wellFormed = true := by
  cases bs with
  | nil => cases h
  | cons o bs =>
    have hsound := decodeOpcode_sound o
    obtain ⟨hd, -⟩ | ⟨t, b, hd, -, rfl⟩ := decodeBytes_cases h <;> rw [hd] at hsound
    · exact hsound.2
    · exact hsound b

theorem opcodeLength_of_decodeBytes {o : Byte} {rest left : List Byte} {i : Instr}
    (h : decodeBytes (o :: rest) = .ok (i, left)) : opcodeLength o = some i.length := by
  obtain ⟨hd, -⟩ | ⟨t, b, hd, -, rfl⟩ := decodeBytes_cases h
  · have hsound := decodeOpcode_sound o
    rw [hd] at hsound
    rw [opcodeLength_of_oneByte hd, hsound.1]
  · rw [opcodeLength_of_twoByte hd, TwoByte.length_complete]

theorem length_of_decodeBytes {o : Byte} {rest left : List Byte} {i : Instr}
    (h : decodeBytes (o :: rest) = .ok (i, left)) : (o :: rest).length = left.length + i.length := by
  obtain ⟨hd, rfl⟩ | ⟨t, b, -, rfl, rfl⟩ := decodeBytes_cases h
  · have hsound := decodeOpcode_sound o
    rw [hd] at hsound
    rw [hsound.1, List.length_cons]
  · rw [TwoByte.length_complete, List.length_cons, List.length_cons]

/-- The rows of two-byte instructions (Table E-1). -/
theorem opcodeLength_eq_two_iff (o : Byte) (h : opcodeLength o ≠ none) :
    opcodeLength o = some 2 ↔ o.toNat / 16 ∈ [0x1, 0x4, 0x5, 0x7] ∨ (o.toNat / 16 = 0x2 ∧ o.toNat % 2 = 0) := by
  revert o
  decide

/-- Settles O3: the decoder's answer has the length of its opcode byte, and the table's rows say which bytes have two. -/
theorem lengthKnownFromOpcodeByte : Obligations.LengthKnownFromOpcodeByte := by
  unfold Obligations.LengthKnownFromOpcodeByte
  intro o rest i left h
  have hlen := opcodeLength_of_decodeBytes h
  have hrows := opcodeLength_eq_two_iff o (by simp [hlen])
  rw [hlen, Option.some_inj] at hrows
  exact ⟨hlen, length_of_decodeBytes h, hrows, i.length_eq_one_or_two⟩

/-! ### The opcode table's fixed facts -/

/-- Settles O2, by the table's 256 entries. -/
theorem illegalBytesAreTheFortySix : Obligations.IllegalBytesAreTheFortySix := by
  unfold Obligations.IllegalBytesAreTheFortySix
  decide

/-- Settles O4, by running the decoder on the nine words. -/
theorem writtenWordsDecode : Obligations.WrittenWordsDecode := by
  unfold Obligations.WrittenWordsDecode
  decide

/-! ### Fields of an encoded opcode byte -/

@[simp] theorem hiNibble_append (h l : Nibble) : hiNibble (h ++ l) = h := by
  revert h l
  decide

@[simp] theorem loNibble_append (h l : Nibble) : loNibble (h ++ l) = l := by
  revert h l
  decide

theorem decodeOpcode_append (h l : Nibble) : decodeOpcode (h ++ l) = decodeNibbles h l := by
  rw [decodeOpcode, hiNibble_append, loNibble_append]

theorem regField_regBits {r : Nat} (h : regOk r = true) : regField (regBits r) = r := by
  rw [regField, regBits, BitVec.toNat_ofNat]
  exact Nat.mod_eq_of_lt (of_decide_eq_true h)

theorem regBits_regField (l : Nibble) : regBits (regField l) = l := by
  rw [regBits, regField, BitVec.ofNat_toNat, BitVec.setWidth_eq]

/-- The pair indexes are the eight even numbers below 16 (R11, R58). -/
theorem exists_half_of_pairOk {p : Nat} (h : pairOk p = true) : ∃ q : Fin 8, p = 2 * q.val := by
  obtain ⟨hlt, heven⟩ : p < 16 ∧ p % 2 = 0 := by simpa using h
  exact ⟨⟨p / 2, by omega⟩, by dsimp only; omega⟩

/-- The selector bit tells `SRC` from `FIM` and `JIN` from `FIN` (format P). -/
theorem decodeNibbles_pairBits {p : Nat} (h : pairOk p = true) :
    decodeNibbles 0x2#4 (pairBits p 0#1) = .twoByte (.fim p) ∧
      decodeNibbles 0x2#4 (pairBits p 1#1) = .oneByte (.src p) ∧
      decodeNibbles 0x3#4 (pairBits p 0#1) = .oneByte (.fin p) ∧
      decodeNibbles 0x3#4 (pairBits p 1#1) = .oneByte (.jin p) := by
  obtain ⟨q, rfl⟩ := exists_half_of_pairOk h
  revert q
  decide

theorem pairBits_pairField (l : Nibble) : pairBits (pairField l) (BitVec.ofBool (l.getLsbD 0)) = l := by
  revert l
  decide

/-! ### Decoding an encoded instruction -/

/-- The bytes are an opcode byte that decodes to the instruction, with its operand byte where it has one. -/
def DecodesTo (i : Instr) : List Byte → Prop
  | [o] => decodeOpcode o = .oneByte i
  | [o, b] => ∃ t, decodeOpcode o = .twoByte t ∧ t.complete b = i
  | _ => False

theorem encode_decodesTo {i : Instr} (h : i.wellFormed = true) : DecodesTo i (encode i) := by
  cases i with
  | ld r | xch r | add r | sub r | inc r =>
    have hr : regField (regBits r) = r := regField_regBits h
    simp [encode, DecodesTo, decodeOpcode_append, decodeNibbles, hr]
  | isz r b =>
    have hr : regField (regBits r) = r := regField_regBits h
    exact ⟨.isz r, by simp [decodeOpcode_append, decodeNibbles, hr], rfl⟩
  | fin p | jin p | src p =>
    obtain ⟨-, hsrc, hfin, hjin⟩ := decodeNibbles_pairBits h
    simp only [encode, DecodesTo, decodeOpcode_append, hsrc, hfin, hjin]
  | fim p b =>
    obtain ⟨hfim, -⟩ := decodeNibbles_pairBits h
    exact ⟨.fim p, by rw [decodeOpcode_append, hfim], rfl⟩
  | jun a | jms a =>
    have ha : (addrHi a ++ addrLo a).toNat = a := Machine.addrHi_append_addrLo (of_decide_eq_true h)
    exact ⟨_, decodeOpcode_append _ _, congrArg _ ha⟩
  | ldm d | bbl d => exact decodeOpcode_append _ d
  | jcnC1 b | jcnAZ b | jcnC0 b | jcnAN b => exact ⟨_, rfl, rfl⟩
  | _ => exact rfl

theorem decodeBytes_of_decodesTo {i : Instr} {bs : List Byte} (h : DecodesTo i bs) (rest : List Byte) :
    decodeBytes (bs ++ rest) = .ok (i, rest) := by
  match bs, h with
  | [_], hd => exact decodeBytes_of_oneByte hd rest
  | [_, b], ⟨t, hd, hi⟩ =>
    rw [← hi]
    exact decodeBytes_of_twoByte hd b rest

/-- Settles O5, through the opcode byte of each row. -/
theorem decodeOfEncode : Obligations.DecodeOfEncode := by
  unfold Obligations.DecodeOfEncode
  intro i rest h
  exact decodeBytes_of_decodesTo (encode_decodesTo h) rest

/-! ### Encoding a decoded instruction -/

/-- What the encoder makes of an entry of the opcode table: the opcode byte, then any operand byte. -/
def Decoded.EncodesBack (o : Byte) : Decoded → Prop
  | .illegal => True
  | .oneByte i => encode i = [o]
  | .twoByte t => ∀ b, encode (t.complete b) = [o, b]

theorem eq_ofNat_of_toNat_eq {l : Nibble} {n : Nat} (h : l.toNat = n) : l = BitVec.ofNat 4 n := by
  rw [← h, BitVec.ofNat_toNat, BitVec.setWidth_eq]

theorem decodeCond_encodesBack (l : Nibble) : (decodeCond l).EncodesBack (0x1#4 ++ l) := by
  unfold decodeCond
  split
  case h_5 => trivial
  all_goals
    obtain rfl := eq_ofNat_of_toNat_eq ‹_›
    exact fun _ => rfl

theorem decodeRowE_encodesBack (l : Nibble) : (decodeRowE l).EncodesBack (0xE#4 ++ l) := by
  unfold decodeRowE
  split
  case h_5 => trivial
  all_goals
    obtain rfl := eq_ofNat_of_toNat_eq ‹_›
    rfl

theorem decodeRowF_encodesBack (l : Nibble) : (decodeRowF l).EncodesBack (0xF#4 ++ l) := by
  unfold decodeRowF
  split
  case h_11 => trivial
  all_goals
    obtain rfl := eq_ofNat_of_toNat_eq ‹_›
    rfl

/-- The pair rows read bit 0 as the selector, and the encoder writes it back. -/
theorem pairBits_of_getLsbD {l : Nibble} {b : Bool} (h : l.getLsbD 0 = b) :
    pairBits (pairField l) (BitVec.ofBool b) = l := h ▸ pairBits_pairField l

theorem decodeNibbles_encodesBack (h l : Nibble) : (decodeNibbles h l).EncodesBack (h ++ l) := by
  unfold decodeNibbles
  split
  case h_16 => trivial
  all_goals obtain rfl := eq_ofNat_of_toNat_eq ‹_›
  case h_1 => exact decodeCond_encodesBack l
  case h_2 => -- SRC, FIM
    split
    case isTrue hsel => exact congrArg (fun l => [0x2#4 ++ l]) (pairBits_of_getLsbD hsel)
    case isFalse hsel =>
      exact fun b => congrArg (fun l => [0x2#4 ++ l, b]) (pairBits_of_getLsbD (Bool.eq_false_of_not_eq_true hsel))
  case h_3 => -- JIN, FIN
    split
    case isTrue hsel => exact congrArg (fun l => [0x3#4 ++ l]) (pairBits_of_getLsbD hsel)
    case isFalse hsel =>
      exact congrArg (fun l => [0x3#4 ++ l]) (pairBits_of_getLsbD (Bool.eq_false_of_not_eq_true hsel))
  case h_4 | h_5 => -- JUN, JMS
    intro b
    simp only [TwoByte.complete, encode, Machine.addrHi_append, Machine.addrLo_append]
  case h_7 => exact fun b => congrArg (fun l => [0x7#4 ++ l, b]) (regBits_regField l) -- ISZ
  case h_6 | h_8 | h_9 | h_10 | h_11 => -- INC, ADD, SUB, LD, XCH
    simp only [Decoded.EncodesBack, encode, regBits_regField]
  case h_12 | h_13 => rfl -- BBL, LDM
  case h_14 => exact decodeRowE_encodesBack l
  case h_15 => exact decodeRowF_encodesBack l

theorem decodeOpcode_encodesBack (o : Byte) : (decodeOpcode o).EncodesBack o := by
  have h := decodeNibbles_encodesBack (hiNibble o) (loNibble o)
  rwa [Machine.hi_append_lo] at h

/-- Settles O6: every entry of the opcode table is encoded back, so what follows it is kept too. -/
theorem encodeOfDecode : Obligations.EncodeOfDecode := by
  unfold Obligations.EncodeOfDecode
  intro bs i rest h
  refine ⟨wellFormed_of_decodeBytes h, ?_⟩
  cases bs with
  | nil => cases h
  | cons o bs =>
    have hback := decodeOpcode_encodesBack o
    obtain ⟨hd, rfl⟩ | ⟨t, b, hd, rfl, rfl⟩ := decodeBytes_cases h <;> rw [hd] at hback
    · exact congrArg (· ++ bs) hback
    · exact congrArg (· ++ rest) (hback b)

end Sys2Proof
end

section
/-! PROOFS. Assembling the line of an instruction gives the instruction (R66). -/

namespace Sys2Proof.Machine

/-- An in-page offset is recovered from the full address written for it. -/
theorem asmOffset_asmPageAddr (pc : Addr) (b : Byte) : asmOffset pc (asmPageAddr pc b) = some b := by
  have haddr : asmPageAddr pc b = pc.toNat / 256 * 256 + b.toNat := pageTarget_toNat pc b
  have hpage : asmPageAddr pc b / 256 = pc.toNat / 256 := by omega
  have hlow : BitVec.ofNat 8 (asmPageAddr pc b) = b := addrLo_append _ b
  rw [asmOffset, if_pos hpage, hlow]

theorem asmOne_num {ok : Nat → Bool} {n : Nat} (h : ok n = true) (mk : Nat → Instr) :
    asmOne ok mk [.num n] = some (mk n) := if_pos h

theorem asmOne_imm4 (mk : Nibble → Instr) (d : Nibble) :
    asmOne imm4Ok (fun n => mk (BitVec.ofNat 4 n)) [.num d.toNat] = some (mk d) := by
  rw [asmOne_num (decide_eq_true d.isLt), BitVec.ofNat_toNat, BitVec.setWidth_eq]

/-- Settles O7, by the shape of each instruction's operands. -/
theorem assembleOfToAsm : Obligations.AssembleOfToAsm := by
  unfold Obligations.AssembleOfToAsm
  intro pc i h
  cases i with
  | ldm d => exact asmOne_imm4 Instr.ldm d
  | bbl d => exact asmOne_imm4 Instr.bbl d
  | ld | xch | fin | add | sub | inc | jun | jms | jin | src => exact asmOne_num h _
  | fim p d =>
    have hp : pairOk p = true := h
    simp [assemble, toAsm, asmFim, hp, d.isLt]
  | isz r b =>
    have hr : regOk r = true := h
    simp [assemble, toAsm, asmIsz, hr, asmOffset_asmPageAddr]
  | jcnC1 | jcnAZ | jcnC0 | jcnAN =>
    simp [assemble, toAsm, asmJcn, AsmOperand.asCond, asmOffset_asmPageAddr, Cond.instr]
  | _ => rfl

end Sys2Proof.Machine
end

section
/-! PROOFS. The step of a running core (R68, R131): which instruction it runs, that it completes or faults and nothing else,
which fault it takes and why, and what the host is told of it. -/

namespace Sys2Proof.Machine

/-! ### The fetched instruction -/

theorem fetchDecode_of_oneByte {s : State} {i : Instr} (h : decodeOpcode (s.progRead s.pc) = .oneByte i) :
    s.fetchDecode = some i := by
  simp [State.fetchDecode, h]

theorem fetchDecode_of_twoByte {s : State} {t : TwoByte} (h : decodeOpcode (s.progRead s.pc) = .twoByte t) :
    s.fetchDecode = some (t.complete (s.progRead (operandAddr s))) := by
  simp [State.fetchDecode, h]

/-- The fetch reads the two bytes at `pc` as the decoder of byte sequences does (R69). -/
theorem fetchDecode_of_decodeBytes {s : State} {i : Instr} {rest : List Byte}
    (h : decodeBytes [s.progRead s.pc, s.progRead (operandAddr s)] = .ok (i, rest)) : s.fetchDecode = some i := by
  obtain ⟨hd, -⟩ | ⟨t, b, hd, hbytes, rfl⟩ := decodeBytes_cases h
  · exact fetchDecode_of_oneByte hd
  · cases hbytes
    exact fetchDecode_of_twoByte hd

/-- The instruction at `pc` is one the opcode table gives: complete in one byte, or completed by the operand byte. -/
theorem fetchDecode_cases {s : State} {i : Instr} (h : s.fetchDecode = some i) :
    decodeOpcode (s.progRead s.pc) = .oneByte i ∨
      ∃ t, decodeOpcode (s.progRead s.pc) = .twoByte t ∧ i = t.complete (s.progRead (operandAddr s)) := by
  cases hd : decodeOpcode (s.progRead s.pc) with
  | illegal =>
    rw [fetchDecode_none.mpr hd] at h
    cases h
  | oneByte j =>
    rw [fetchDecode_of_oneByte hd] at h
    cases h
    exact .inl rfl
  | twoByte t =>
    rw [fetchDecode_of_twoByte hd] at h
    cases h
    exact .inr ⟨t, rfl, rfl⟩

theorem wellFormed_of_fetchDecode {s : State} {i : Instr} (h : s.fetchDecode = some i) : i.wellFormed = true := by
  have hsound := decodeOpcode_sound (s.progRead s.pc)
  obtain hd | ⟨t, hd, rfl⟩ := fetchDecode_cases h <;> rw [hd] at hsound
  · exact hsound.2
  · exact hsound _

/-- An operand byte is asked for exactly by the two-byte instructions (R65). -/
theorem needsOperandByte_of_fetchDecode {s : State} {i : Instr} (h : s.fetchDecode = some i) :
    needsOperandByte (s.progRead s.pc) = decide (i.length = 2) := by
  have hsound := decodeOpcode_sound (s.progRead s.pc)
  obtain hd | ⟨t, hd, rfl⟩ := fetchDecode_cases h
  · rw [hd] at hsound
    simp [needsOperandByte, hd, hsound.1]
  · simp [needsOperandByte, hd]

theorem needsOperandByte_of_fetchDecode_none {s : State} (h : s.fetchDecode = none) :
    needsOperandByte (s.progRead s.pc) = false := by
  simp [needsOperandByte, fetchDecode_none.mp h]

/-! ### The step of a running core -/

theorem step_of_fetchDecode {s : State} {i : Instr} (hrun : s.Running) (h : s.fetchDecode = some i) :
    step s = exec i s := by
  rw [step_running hrun, runningStep, h]

theorem step_of_fetchDecode_none {s : State} (hrun : s.Running) (h : s.fetchDecode = none) :
    step s = .next (s.setStatus (.faulted .illegalOpcode)) := by
  rw [step_running hrun, runningStep, h]
  rfl

/-- Settles O8: the decoder of byte sequences and the fetch agree on the two bytes at `pc`. -/
theorem stepRunsDecodedInstruction : Obligations.StepRunsDecodedInstruction := by
  unfold Obligations.StepRunsDecodedInstruction
  intro s i rest hrun h
  exact step_of_fetchDecode hrun (fetchDecode_of_decodeBytes h)

/-- Settles O9: an illegal byte is fetched as no instruction. -/
theorem illegalOpcodeStopsTheCore : Obligations.IllegalOpcodeStopsTheCore := by
  unfold Obligations.IllegalOpcodeStopsTheCore
  intro s hrun h
  exact step_of_fetchDecode_none hrun (fetchDecode_none.mpr h)

/-- The fault a step of a running core takes, if any: the checks come in the order of R132. -/
def stepFault (s : State) : Option Fault :=
  match s.fetchDecode with
  | none => some .illegalOpcode
  | some i => stackFault i s

/-- A running core completes the fetched instruction, or takes its fault and writes the status alone (R131). -/
theorem running_step_cases {s : State} (hrun : s.Running) :
    (∃ i, s.fetchDecode = some i ∧ stepFault s = none ∧ step s = .next (completed i s)) ∨
      ∃ k, stepFault s = some k ∧ step s = .next (s.setStatus (.faulted k)) := by
  cases hi : s.fetchDecode with
  | none => exact .inr ⟨.illegalOpcode, by simp [stepFault, hi], step_of_fetchDecode_none hrun hi⟩
  | some i =>
    have hwf := wellFormed_of_fetchDecode hi
    have hfault : stepFault s = stackFault i s := by simp [stepFault, hi]
    rw [step_of_fetchDecode hrun hi, hfault]
    cases hk : stackFault i s with
    | none => exact .inl ⟨i, rfl, rfl, exec_completes hwf hk⟩
    | some k => exact .inr ⟨k, rfl, exec_stackFault hwf hk⟩

/-- The stack faults and their instructions (R16, R112, R113). -/
theorem stackFault_eq_some_iff {i : Instr} {s : State} {k : Fault} :
    stackFault i s = some k ↔
      (k = .stackOverflow ∧ (∃ a, i = .jms a) ∧ 3 ≤ s.stk.length) ∨
        (k = .stackUnderflow ∧ (∃ d, i = .bbl d) ∧ s.stk = []) := by
  cases i with
  | jms a =>
    simp [stackFault]
    tauto
  | bbl d =>
    simp [stackFault]
    tauto
  | _ => simp [stackFault]

/-- The causes of Table G-1 that a decoded step can meet (R130). -/
theorem stepFault_eq_some_iff {s : State} {k : Fault} :
    stepFault s = some k ↔
      (k = .illegalOpcode ∧ decodeOpcode (s.progRead s.pc) = .illegal) ∨
        (k = .stackOverflow ∧ (∃ a, s.fetchDecode = some (.jms a)) ∧ 3 ≤ s.stk.length) ∨
          (k = .stackUnderflow ∧ (∃ d, s.fetchDecode = some (.bbl d)) ∧ s.stk = []) := by
  rw [← fetchDecode_none, stepFault]
  cases hi : s.fetchDecode with
  | none => simp [eq_comm]
  | some i => simp [stackFault_eq_some_iff]

theorem stepFault_ne_preconditionViolation (s : State) : stepFault s ≠ some .preconditionViolation := by
  simp [stepFault_eq_some_iff]

@[simp] theorem completed_status (i : Instr) (s : State) : (completed i s).status = s.status := by
  rw [completed, State.retire_status, effect_status]

@[simp] theorem completed_cycles (i : Instr) (s : State) : (completed i s).cycles = s.cycles + i.cost := by
  rw [completed, State.retire_cycles, effect_cycles, Instr.cost]

/-- Settles O10: the two ends of a running core's step, and the list of its causes holds no `PreconditionViolation`. -/
theorem stepIsAtomicAndTotal : Obligations.StepIsAtomicAndTotal := by
  unfold Obligations.StepIsAtomicAndTotal
  intro s hrun
  obtain ⟨i, hi, -, hstep⟩ | ⟨k, hk, hstep⟩ := running_step_cases hrun
  · have hstatus : (completed i s).status = .running := (completed_status i s).trans hrun
    exact ⟨_, hstep, .inl ⟨i, hi, wellFormed_of_fetchDecode hi, hstatus, completed_cycles i s⟩⟩
  · refine ⟨_, hstep, .inr ⟨k, ?_, rfl⟩⟩
    rintro rfl
    exact stepFault_ne_preconditionViolation s hk

/-- The status after a step of a running core tells its fault. -/
theorem status_faulted_iff {s t : State} {k : Fault} (hrun : s.Running) (h : step s = .next t) :
    t.status = .faulted k ↔ stepFault s = some k := by
  obtain ⟨i, -, hfault, hstep⟩ | ⟨j, hfault, hstep⟩ := running_step_cases hrun
  · cases hstep.symm.trans h
    simp [hfault, show s.status = .running from hrun]
  · cases hstep.symm.trans h
    simp [hfault]

/-- Settles O11: the status after the step is the fault its checks found. -/
theorem faultOfAStepHasItsCause : Obligations.FaultOfAStepHasItsCause := by
  unfold Obligations.FaultOfAStepHasItsCause
  intro s t k hrun h
  exact (status_faulted_iff hrun h).trans stepFault_eq_some_iff

theorem eq_setStatus_of_faulted {s t : State} {k : Fault} (hrun : s.Running) (h : step s = .next t)
    (hk : stepFault s = some k) : t = s.setStatus (.faulted k) := by
  obtain ⟨i, -, hfault, -⟩ | ⟨j, hfault, hstep⟩ := running_step_cases hrun
  · cases hfault.symm.trans hk
  · cases hfault.symm.trans hk
    cases hstep.symm.trans h
    rfl

/-- The faulting instruction has two bytes exactly when it is the `JMS` of a full stack. -/
theorem needsOperandByte_of_stepFault {s : State} {k : Fault} (h : stepFault s = some k) :
    needsOperandByte (s.progRead s.pc) = decide (k = .stackOverflow) := by
  obtain ⟨rfl, hill⟩ | ⟨rfl, ⟨a, hi⟩, -⟩ | ⟨rfl, ⟨d, hi⟩, -⟩ := stepFault_eq_some_iff.mp h
  · exact needsOperandByte_of_fetchDecode_none (fetchDecode_none.mpr hill)
  · exact needsOperandByte_of_fetchDecode hi
  · exact needsOperandByte_of_fetchDecode hi

/-- Settles O12: the report is read off a state that differs from the faulting one in its status alone. -/
theorem faultReportNamesTheInstruction : Obligations.FaultReportNamesTheInstruction := by
  unfold Obligations.FaultReportNamesTheInstruction
  intro s t k hrun h hstatus
  have hk := (status_faulted_iff hrun h).mp hstatus
  have hbytes : s.bytesAtPc =
      if k = .stackOverflow then [s.progRead s.pc, s.progRead (s.pc + 1#12)] else [s.progRead s.pc] := by
    rw [State.bytesAtPc, needsOperandByte_of_stepFault hk, operandAddr, Bool.cond_decide]
  rw [← hbytes, eq_setStatus_of_faulted hrun h hk]
  cases k <;> rfl

/-! ### The host's reply to a step -/

theorem requestStep_of_next {s t : State} (h : step s = .next t) : requestStep s = (t, stepReply s t) := by
  rw [requestStep, h]

theorem stepReply_of_faulted (s : State) {t : State} {k : Fault} (h : t.status = .faulted k) : stepReply s t = .fault k := by
  rw [stepReply, h]

theorem stepReply_of_running {s t : State} {i : Instr} (h : t.status = .running) (hi : s.fetchDecode = some i) :
    stepReply s t = .cost i.cost := by
  rw [stepReply, h, State.fetchCost, hi]

theorem cost_eq_eight_or_sixteen (i : Instr) : i.cost = 8 ∨ i.cost = 16 := by
  rw [i.cost_eq]
  split
  · exact .inl rfl
  · exact .inr rfl

/-- Settles O16: the reply follows the two ends of a running core's step. -/
theorem stepReplyIsCostOrFault : Obligations.StepReplyIsCostOrFault := by
  unfold Obligations.StepReplyIsCostOrFault
  intro s hrun
  obtain ⟨i, hi, -, hstep⟩ | ⟨k, -, hstep⟩ := running_step_cases hrun <;> rw [requestStep_of_next hstep]
  · have hstatus : (completed i s).status = .running := (completed_status i s).trans hrun
    exact .inl ⟨i.cost, cost_eq_eight_or_sixteen i, stepReply_of_running hstatus hi, hstatus, completed_cycles i s⟩
  · exact .inr ⟨k, stepReply_of_faulted s (s.setStatus_status _), rfl⟩

end Sys2Proof.Machine
end

section
/-! PROOFS. What any instruction leaves unchanged (R10 to R16, R35, spec decision D9): each field of the next state, read off
`exec_meets` and the frame of `effect`. -/

namespace Sys2Proof.Machine

/-! ### Fields through a completed instruction -/

theorem exec_keeps_reg {i : Instr} {k : Nat} (h : k ∉ regWrites i) (s : State) :
    NextMeets (fun t => t.reg k = s.reg k) (exec i s) := exec_meets (fun _ => rfl) (effect_reg h s)

theorem exec_keeps_acc {i : Instr} (h : writesAcc i = false) (s : State) :
    NextMeets (fun t => t.acc = s.acc) (exec i s) := exec_meets (fun _ => rfl) (effect_acc h s)

theorem exec_keeps_cy {i : Instr} (h : writesCy i = false) (s : State) :
    NextMeets (fun t => t.cy = s.cy) (exec i s) := exec_meets (fun _ => rfl) (effect_cy h s)

theorem exec_keeps_dp {i : Instr} (h : writesDp i = false) (s : State) :
    NextMeets (fun t => t.dp = s.dp) (exec i s) := exec_meets (fun _ => rfl) (effect_dp h s)

theorem exec_keeps_stk {i : Instr} (h : writesStk i = false) (s : State) :
    NextMeets (fun t => t.stk = s.stk) (exec i s) := exec_meets (fun _ => rfl) (effect_stk h s)

theorem exec_keeps_ram {i : Instr} (h : i ≠ .wrm) (s : State) :
    NextMeets (fun t => t.ram = s.ram) (exec i s) := exec_meets (fun _ => rfl) (effect_ram h s)

/-- Settles O24: the checks decide, and the operand check comes first. -/
theorem everyTermHasANextState : Obligations.EveryTermHasANextState := by
  unfold Obligations.EveryTermHasANextState
  intro i s
  exact ⟨exec_next i s, fun h => exec_illFormed h s⟩

/-- Settles O25: the frame of `effect` for registers. -/
theorem registersChangeOnlyByTheirWriters : Obligations.RegistersChangeOnlyByTheirWriters := by
  unfold Obligations.RegistersChangeOnlyByTheirWriters
  intro i s t h k hk
  exact exec_keeps_reg hk s t h

/-- Settles O26: the frame of `effect` for `A` and `CY`. -/
theorem accAndCarryChangeOnlyByTheirWriters : Obligations.AccAndCarryChangeOnlyByTheirWriters := by
  unfold Obligations.AccAndCarryChangeOnlyByTheirWriters
  intro i s t h
  exact ⟨fun hacc => exec_keeps_acc hacc s t h, fun hcy => exec_keeps_cy hcy s t h⟩

/-! ### The call stack -/

/-- A completed instruction leaves the stack, or is a `JMS` with room that pushes, or a `BBL` that pops (R16). -/
theorem completed_stk_cases {i : Instr} {s : State} (h : execFault i s = none) :
    (completed i s).stk = s.stk ∨
      (∃ a v, i = .jms a ∧ s.stk.length < 3 ∧ (completed i s).stk = s.stk ++ [v]) ∨
        ∃ d v, i = .bbl d ∧ s.stk = (completed i s).stk ++ [v] := by
  obtain ⟨-, hstk⟩ := execFault_eq_none_iff.mp h
  cases i with
  | jms a =>
    have hroom : s.stk.length < 3 := by simpa [stackFault] using hstk
    exact .inr (.inl ⟨a, returnAddr s, rfl, hroom, rfl⟩)
  | bbl d =>
    have hentry : s.stk ≠ [] := by simpa [stackFault] using hstk
    exact .inr (.inr ⟨d, s.stk.getLast hentry, rfl, (List.dropLast_append_getLast hentry).symm⟩)
  | _ => exact .inl rfl

/-- What any instruction can do to the call stack. -/
theorem exec_stk_cases {i : Instr} {s t : State} (h : exec i s = .next t) :
    t.stk = s.stk ∨ (∃ a v, i = .jms a ∧ s.stk.length < 3 ∧ t.stk = s.stk ++ [v]) ∨
      ∃ d v, i = .bbl d ∧ s.stk = t.stk ++ [v] := by
  obtain ⟨k, -, rfl⟩ | ⟨hfault, rfl⟩ := exec_cases h
  · exact .inl rfl
  · exact completed_stk_cases hfault

/-- Settles O27: the frame of `effect`, and what a push and a pop do. -/
theorem dpAndStackChangeOnlyByTheirWriters : Obligations.DpAndStackChangeOnlyByTheirWriters := by
  unfold Obligations.DpAndStackChangeOnlyByTheirWriters
  intro i s t h
  refine ⟨fun hdp => exec_keeps_dp hdp s t h, fun hstk => exec_keeps_stk hstk s t h, ?_⟩
  obtain hsame | ⟨a, v, hi, -, hpush⟩ | hpop := exec_stk_cases h
  · exact .inl hsame
  · exact .inr (.inl ⟨a, v, hi, hpush⟩)
  · exact .inr (.inr hpop)

/-! ### The data store, `pc` and `cycles` -/

theorem exec_wrm (s : State) : exec .wrm s = .next ((s.memWrite s.dp s.acc).retire none 1) := rfl

/-- Settles O28: `WRM` stores at `DP`, and no other instruction touches the store. -/
theorem dataStoreChangesOnlyByWrmAtDp : Obligations.DataStoreChangesOnlyByWrmAtDp := by
  unfold Obligations.DataStoreChangesOnlyByWrmAtDp
  intro i s t hinv h a ha
  by_cases hi : i = .wrm
  · subst hi
    cases (exec_wrm s).symm.trans h
    exact State.memRead_memWrite_ne hinv.2.1 _ (ha rfl)
  · exact congrArg (Memory.read · a.toNat) (exec_keeps_ram hi s t h)

/-- `pc` moves by the length of an instruction that assigns none (R70). -/
theorem completed_pc_toNat {i : Instr} (h : mayAssignPc i = false) (s : State) :
    (completed i s).pc.toNat = (s.pc.toNat + i.length) % 4096 := by
  rw [completed, target_of_not_mayAssignPc h, retire_none, effect_pc, BitVec.toNat_add, BitVec.toNat_ofNat]
  omega

/-- Settles O29: `retire` ends a completed instruction, and a fault writes the status alone. -/
theorem pcAndCyclesAtTheEndOfAStep : Obligations.PcAndCyclesAtTheEndOfAStep := by
  unfold Obligations.PcAndCyclesAtTheEndOfAStep
  intro i s t h
  obtain ⟨k, -, rfl⟩ | ⟨-, rfl⟩ := exec_cases h
  · exact .inr ⟨⟨k, rfl⟩, rfl, rfl⟩
  · exact .inl ⟨completed_status i s, completed_cycles i s, fun hpc => completed_pc_toNat hpc s⟩

end Sys2Proof.Machine
end

section
/-! PROOFS. The invariant (R16, R30, R33): every instruction, step and host request keeps it, so every reachable state meets
it. -/

namespace Sys2Proof.Machine

theorem exec_keeps_ram_wf {i : Instr} {s : State} (h : s.ram.wf Config.dataSize = true) :
    NextMeets (fun t => t.ram.wf Config.dataSize = true) (exec i s) := by
  by_cases hi : i = .wrm
  · subst hi
    exact exec_meets (fun _ => h) (Memory.write_wf h s.dp.isLt)
  · intro t ht
    rwa [exec_keeps_ram hi s t ht]

/-- A push needs room, so the depth stays at most 3 (R16). -/
theorem exec_keeps_depth {i : Instr} {s : State} (h : s.stk.length ≤ Config.stackDepth) :
    NextMeets (fun t => t.stk.length ≤ Config.stackDepth) (exec i s) := by
  intro t ht
  obtain hsame | ⟨a, v, -, hroom, hpush⟩ | ⟨d, v, -, hpop⟩ := exec_stk_cases ht
  · rwa [hsame]
  · rw [hpush, List.length_append]
    exact hroom
  · rw [hpop, List.length_append] at h
    exact Nat.le_of_succ_le h

theorem exec_keeps_inv {i : Instr} {s : State} (h : s.Inv) : NextMeets State.Inv (exec i s) := by
  obtain ⟨hrom, hram, hstk⟩ := h
  intro t ht
  refine ⟨?_, exec_keeps_ram_wf hram t ht, exec_keeps_depth hstk t ht⟩
  rwa [exec_keeps_rom i s t ht]

theorem step_keeps_inv {s : State} (h : s.Inv) : NextMeets State.Inv (step s) := by
  intro t ht
  obtain ⟨-, ⟨-, rfl⟩ | ⟨i, -, hexec⟩⟩ := step_cases ht
  · exact h
  · exact exec_keeps_inv h t hexec

/-- Settles O21: the fetch faults and writes the status alone, or the fetched instruction keeps the invariant. -/
theorem stepKeepsInvariant : Obligations.StepKeepsInvariant := by
  unfold Obligations.StepKeepsInvariant
  intro s t h ht
  exact step_keeps_inv h t ht

/-- Settles O20, by running the checks on the empty stores. -/
theorem resetMeetsInvariant : Obligations.ResetMeetsInvariant := by
  unfold Obligations.ResetMeetsInvariant
  decide

theorem resetWith_inv {img : List Byte} (h : img.length ≤ Config.progSize) : (resetWith img).Inv :=
  ⟨imageFrom_wf img h, resetMeetsInvariant.1.2⟩

theorem requestReset_keeps_inv (img : List Byte) {s : State} (h : s.Inv) : (requestReset img s).1.Inv := by
  unfold requestReset
  split
  case isTrue hfits => exact resetWith_inv hfits
  case isFalse => exact h

theorem requestStep_keeps_inv {s : State} (h : s.Inv) : (requestStep s).1.Inv := by
  unfold requestStep
  split
  · exact step_keeps_inv h _ ‹_›
  · exact h
  · exact h

theorem requestHalt_keeps_inv {s : State} (h : s.Inv) : (requestHalt s).Inv := by
  unfold requestHalt
  split <;> exact h

theorem serve_keeps_inv (q : Request) {s : State} (h : s.Inv) : (serve q s).1.Inv := by
  cases q with
  | reset img => exact requestReset_keeps_inv img h
  | step => exact requestStep_keeps_inv h
  | halt => exact requestHalt_keeps_inv h
  | inspect => exact h

/-- What every request keeps, every sequence of requests keeps. -/
theorem serveAll_keeps {P : State → Prop} (hserve : ∀ q s, P s → P (serve q s).1) (qs : List Request) {s : State}
    (h : P s) : P (serveAll qs s) := by
  induction qs generalizing s with
  | nil => exact h
  | cons q qs ih => exact ih (hserve q s h)

/-- Settles O22: the invariant holds at reset and every request keeps it. -/
theorem everyReachableStateMeetsInvariant : Obligations.EveryReachableStateMeetsInvariant := by
  unfold Obligations.EveryReachableStateMeetsInvariant
  intro qs
  exact serveAll_keeps (fun q _ h => serve_keeps_inv q h) qs resetMeetsInvariant.1

end Sys2Proof.Machine
end

section
/-! PROOFS. The host's requests on a stopped core, and reset (R133, R140, R150 to R154). -/

namespace Sys2Proof.Machine

/-- Settles O15, by the status. -/
theorem stoppedCoreAnswersItsStatus : Obligations.StoppedCoreAnswersItsStatus := by
  unfold Obligations.StoppedCoreAnswersItsStatus
  intro s
  exact ⟨fun _ => step_faulted, step_halted⟩

theorem serve_step_faulted {s : State} {k : Fault} (h : s.status = .faulted k) : serve .step s = (s, .fault k) := by
  rw [serve, requestStep, step_faulted h]

theorem serve_step_halted {s : State} (h : s.status = .halted) : serve .step s = (s, .halted) := by
  rw [serve, requestStep, step_halted h]

theorem requestHalt_stopped {s : State} (h : ¬ s.Running) : requestHalt s = s := by
  unfold requestHalt
  split
  · exact absurd ‹_› h
  · rfl
  · rfl

/-- A stopped core keeps its whole state under every request but a reset. -/
theorem serve_stopped {s : State} {q : Request} (h : ¬ s.Running) (hq : ∀ img, q ≠ .reset img) :
    (serve q s).1 = s := by
  cases q with
  | reset img => exact absurd rfl (hq img)
  | step =>
    cases hs : s.status with
    | running => exact absurd hs h
    | halted => rw [serve_step_halted hs]
    | faulted k => rw [serve_step_faulted hs]
  | halt => exact requestHalt_stopped h
  | inspect => rfl

theorem serveAll_stopped {s : State} (h : ¬ s.Running) {qs : List Request} (hqs : ∀ img, Request.reset img ∉ qs) :
    serveAll qs s = s := by
  induction qs with
  | nil => rfl
  | cons q qs ih =>
    have hq : ∀ img, q ≠ .reset img := fun img e => hqs img (e ▸ List.mem_cons_self)
    rw [serveAll, serve_stopped h hq]
    exact ih fun img hmem => hqs img (List.mem_cons_of_mem q hmem)

theorem serve_reset_fits {img : List Byte} (h : img.length ≤ 4096) (s : State) :
    serve (.reset img) s = (resetWith img, .done) := if_pos h

theorem serve_reset_refused {img : List Byte} (h : 4096 < img.length) (s : State) :
    serve (.reset img) s = (s, .resetRefused) := if_neg (Nat.not_le.mpr h)

/-- Settles O13: a stopped core keeps its state under every request but a reset, by induction on the requests. -/
theorem faultIsStickyUntilReset : Obligations.FaultIsStickyUntilReset := by
  unfold Obligations.FaultIsStickyUntilReset
  intro s k qs hk hqs
  have hstop : ¬ s.Running := by simp [State.Running, hk]
  rw [serveAll_stopped hstop hqs]
  refine ⟨rfl, serve_step_faulted hk, ?_⟩
  intro img himg
  rw [serve_reset_fits himg]
  rfl

/-- Settles O14: a stopped core keeps its state under every request but a reset, by induction on the requests. -/
theorem haltedCoreKeepsItsState : Obligations.HaltedCoreKeepsItsState := by
  unfold Obligations.HaltedCoreKeepsItsState
  intro s qs hs hqs
  have hstop : ¬ s.Running := by simp [State.Running, hs]
  rw [serveAll_stopped hstop hqs]
  exact ⟨rfl, serve_step_halted hs⟩

/-- Settles O19: a request that is no reset leaves a stopped core stopped. -/
theorem onlyResetSetsRunning : Obligations.OnlyResetSetsRunning := by
  unfold Obligations.OnlyResetSetsRunning
  intro s q hstop hrun
  by_contra hq
  rw [serve_stopped hstop (not_exists.mp hq)] at hrun
  exact hstop hrun

/-- Settles O18, by whether the core runs. -/
theorem haltRequestOnlySetsStatus : Obligations.HaltRequestOnlySetsStatus := by
  unfold Obligations.HaltRequestOnlySetsStatus
  intro s
  by_cases hrun : s.status = .running
  · rw [if_pos hrun, serve, requestHalt, hrun]
    rfl
  · rw [if_neg hrun]
    exact requestHalt_stopped hrun

theorem reg_reset (r : Nat) : State.reset.reg r = 0#4 := by
  by_cases hr : r < 16
  · simp [State.reg, State.reset, hr]
  · simp [State.reg, hr]

theorem progRead_resetWith (img : List Byte) (a : Addr) : (resetWith img).progRead a = (img[a.toNat]?).getD 0#8 := by
  have h := imageFrom_read (a := 0) img a.toNat
  rwa [Nat.zero_add] at h

/-- Settles O17, by whether the image fits. -/
theorem resetLoadsImageAndClears : Obligations.ResetLoadsImageAndClears := by
  unfold Obligations.ResetLoadsImageAndClears
  intro img s
  constructor
  · intro hfits
    exact ⟨resetWith img, serve_reset_fits hfits s, reg_reset, rfl, rfl, rfl, rfl, rfl, rfl, rfl, fun _ => rfl,
      progRead_resetWith img⟩
  · intro hlong
    exact serve_reset_refused hlong s

end Sys2Proof.Machine
end

section
/-! PROOFS. The memory ports (R32, R36): how many program-store reads a step makes, and that a step sees of either store
only what its ports carry. -/

namespace Sys2Proof.Machine

/-! ### The reads of a step -/

theorem progReads_of_fetchDecode {s : State} {i : Instr} (hrun : s.Running) (hi : s.fetchDecode = some i) :
    progReads s = fetchReads s ++ progDataRead i s := by
  simp [progReads, show s.status = .running from hrun, hi]

theorem progReads_of_fetchDecode_none {s : State} (hrun : s.Running) (hi : s.fetchDecode = none) :
    progReads s = fetchReads s := by
  simp [progReads, show s.status = .running from hrun, hi]

theorem progReads_stopped {s : State} (h : ¬ s.Running) : progReads s = [] := by
  unfold progReads
  split
  · exact absurd ‹_› h
  · rfl
  · rfl

theorem pc_mem_fetchReads (s : State) : s.pc ∈ fetchReads s := by
  unfold fetchReads
  cases needsOperandByte (s.progRead s.pc) <;> simp

/-- The fetch reads as many bytes as the instruction has (R69). -/
theorem fetchReads_of_fetchDecode {s : State} {i : Instr} (hi : s.fetchDecode = some i) :
    fetchReads s = if i.length = 2 then [s.pc, operandAddr s] else [s.pc] := by
  rw [fetchReads, needsOperandByte_of_fetchDecode hi, Bool.cond_decide]

theorem fetchReads_of_fetchDecode_none {s : State} (hi : s.fetchDecode = none) : fetchReads s = [s.pc] := by
  rw [fetchReads, needsOperandByte_of_fetchDecode_none hi, cond_false]

theorem length_fetchReads {s : State} {i : Instr} (hi : s.fetchDecode = some i) : (fetchReads s).length = i.length := by
  rw [fetchReads_of_fetchDecode hi]
  obtain hlen | hlen := i.length_eq_one_or_two <;> simp [hlen]

/-- Only `FIN` reads a byte as data, and it has one byte itself. -/
theorem length_add_progDataRead_le (i : Instr) (s : State) : i.length + (progDataRead i s).length ≤ 2 := by
  cases i with
  | fin p => exact le_refl 2
  | _ => simp [Instr.length, Instr.format, Format.length, progDataRead]

theorem finAddr_eq_ofNat (s : State) : finAddr s = BitVec.ofNat 12 ((s.reg 0).toNat * 16 + (s.reg 1).toNat) := by
  rw [← finAddr_toNat, BitVec.ofNat_toNat, BitVec.setWidth_eq]

/-- Settles O30: the fetch reads as many bytes as the instruction has, and only the one-byte `FIN` reads one more. -/
theorem atMostTwoProgramReads : Obligations.AtMostTwoProgramReads := by
  unfold Obligations.AtMostTwoProgramReads
  intro s
  constructor
  · by_cases hrun : s.Running
    · cases hi : s.fetchDecode with
      | none =>
        rw [progReads_of_fetchDecode_none hrun hi, fetchReads_of_fetchDecode_none hi, List.length_singleton]
        decide
      | some i =>
        rw [progReads_of_fetchDecode hrun hi, List.length_append, length_fetchReads hi]
        exact length_add_progDataRead_le i s
    · rw [progReads_stopped hrun]
      exact Nat.zero_le 2
  · intro p hrun hi
    rw [progReads_of_fetchDecode hrun hi, fetchReads_of_fetchDecode hi, ← finAddr_eq_ofNat]
    rfl

/-! ### Answers mapped over their next state -/

/-- An answer with its next state changed by `f`. -/
def mapNext (f : State → State) : Result → Result
  | .next t => .next (f t)
  | .fault k => .fault k
  | .refused r => .refused r

/-- Two states on which an instruction takes the same fault and completes alike answer alike. -/
theorem exec_eq_mapNext {i : Instr} {s u : State} {f : State → State} (hfault : execFault i u = execFault i s)
    (hraise : ∀ k, execFault i s = some k → u.setStatus (.faulted k) = f (s.setStatus (.faulted k)))
    (hdone : completed i u = f (completed i s)) : exec i u = mapNext f (exec i s) := by
  cases h : execFault i s with
  | none => rw [exec_of_noFault h, exec_of_noFault (hfault.trans h), hdone, mapNext]
  | some k => rw [exec_of_fault h, exec_of_fault (hfault.trans h), hraise k h, mapNext]

/-! ### The program store replaced outside the reads -/

/-- The two program stores hold the same byte at every address of the list. -/
def SameBytes (m : Memory 8) (s : State) (reads : List Addr) : Prop :=
  ∀ a ∈ reads, m.read a.toNat = s.rom.read a.toNat

theorem fetchDecode_setRom {s : State} {m : Memory 8} (h : SameBytes m s (fetchReads s)) :
    (s.setRom m).fetchDecode = s.fetchDecode := by
  have hopcode : (s.setRom m).progRead (s.setRom m).pc = s.progRead s.pc := h _ (pc_mem_fetchReads s)
  cases hd : decodeOpcode (s.progRead s.pc) with
  | illegal => rw [fetchDecode_none.mpr hd, fetchDecode_none.mpr (hopcode ▸ hd)]
  | oneByte i => rw [fetchDecode_of_oneByte hd, fetchDecode_of_oneByte (hopcode ▸ hd)]
  | twoByte t =>
    have hmem : operandAddr s ∈ fetchReads s := by simp [fetchReads, needsOperandByte, hd]
    have hoperand : (s.setRom m).progRead (operandAddr (s.setRom m)) = s.progRead (operandAddr s) := h _ hmem
    rw [fetchDecode_of_twoByte hd, fetchDecode_of_twoByte (hopcode ▸ hd), hoperand]

theorem effect_setRom {i : Instr} {s : State} {m : Memory 8} (h : SameBytes m s (progDataRead i s)) :
    effect i (s.setRom m) = (effect i s).setRom m := by
  cases i with
  | fin p =>
    have hbyte : (s.setRom m).progRead (finAddr (s.setRom m)) = s.progRead (finAddr s) := h _ List.mem_cons_self
    rw [effect, hbyte]
    rfl
  | _ => rfl

theorem exec_setRom {i : Instr} {s : State} {m : Memory 8} (h : SameBytes m s (progDataRead i s)) :
    exec i (s.setRom m) = mapNext (·.setRom m) (exec i s) := by
  refine exec_eq_mapNext rfl (fun _ _ => rfl) ?_
  rw [completed, effect_setRom h]
  rfl

theorem step_setRom {s : State} {m : Memory 8} (h : SameBytes m s (progReads s)) :
    step (s.setRom m) = mapNext (·.setRom m) (step s) := by
  cases hs : s.status with
  | halted => rw [step_halted hs, step_halted (s := s.setRom m) hs, mapNext]
  | faulted k => rw [step_faulted hs, step_faulted (s := s.setRom m) hs, mapNext]
  | running =>
    cases hi : s.fetchDecode with
    | none =>
      rw [progReads_of_fetchDecode_none hs hi] at h
      rw [step_of_fetchDecode_none hs hi, step_of_fetchDecode_none (s := s.setRom m) hs ((fetchDecode_setRom h).trans hi)]
      rfl
    | some i =>
      rw [progReads_of_fetchDecode hs hi] at h
      have hfetch : SameBytes m s (fetchReads s) := fun a ha => h a (List.mem_append_left _ ha)
      have hdata : SameBytes m s (progDataRead i s) := fun a ha => h a (List.mem_append_right _ ha)
      rw [step_of_fetchDecode hs hi, step_of_fetchDecode (s := s.setRom m) hs ((fetchDecode_setRom hfetch).trans hi),
        exec_setRom hdata]

/-- Settles O31: the fetch and the one instruction that reads a byte as data agree on both stores. -/
theorem stepSeesOnlyItsProgramReads : Obligations.StepSeesOnlyItsProgramReads := by
  unfold Obligations.StepSeesOnlyItsProgramReads
  intro s m h
  rw [step_setRom h]
  cases step s <;> rfl

/-! ### The data store replaced outside the read -/

/-- The data store after an access (R35, R36). -/
def DataAccess.store (m : Memory 4) : DataAccess → Memory 4
  | .write a v => m.write a.toNat v
  | .read _ => m
  | .none => m

/-- The two data stores hold the same entry where the access reads. -/
def SameEntry (m : Memory 4) (s : State) (d : DataAccess) : Prop :=
  ∀ a, d = .read a → m.read a.toNat = s.ram.read a.toNat

theorem store_of_execFault {i : Instr} {s : State} {k : Fault} (h : execFault i s = some k) (m : Memory 4) :
    (dataAccess i s).store m = m := by
  cases i with
  | wrm => cases h
  | _ => rfl

theorem effect_setRam {i : Instr} {s : State} {m : Memory 4} (h : SameEntry m s (dataAccess i s)) :
    effect i (s.setRam m) = (effect i s).setRam ((dataAccess i s).store m) := by
  cases i with
  | rdm | adm | sbm =>
    have hentry : (s.setRam m).memRead (s.setRam m).dp = s.memRead s.dp := h _ rfl
    rw [effect, hentry]
    rfl
  | _ => rfl

theorem exec_setRam {i : Instr} {s : State} {m : Memory 4} (h : SameEntry m s (dataAccess i s)) :
    exec i (s.setRam m) = mapNext (·.setRam ((dataAccess i s).store m)) (exec i s) := by
  refine exec_eq_mapNext rfl ?_ ?_
  · intro k hk
    rw [store_of_execFault hk]
    rfl
  · rw [completed, effect_setRam h]
    rfl

theorem stepDataAccess_of_fetchDecode {s : State} {i : Instr} (hrun : s.Running) (hi : s.fetchDecode = some i) :
    stepDataAccess s = dataAccess i s := by
  simp [stepDataAccess, show s.status = .running from hrun, hi]

theorem step_setRam {s : State} {m : Memory 4} (h : SameEntry m s (stepDataAccess s)) :
    step (s.setRam m) = mapNext (·.setRam ((stepDataAccess s).store m)) (step s) := by
  cases hs : s.status with
  | halted => rw [step_halted hs, step_halted (s := s.setRam m) hs, mapNext]
  | faulted k => rw [step_faulted hs, step_faulted (s := s.setRam m) hs, mapNext]
  | running =>
    cases hi : s.fetchDecode with
    | none =>
      have hnone : stepDataAccess s = .none := by simp [stepDataAccess, hs, hi]
      rw [step_of_fetchDecode_none hs hi, step_of_fetchDecode_none (s := s.setRam m) hs hi, hnone]
      rfl
    | some i =>
      rw [stepDataAccess_of_fetchDecode hs hi] at h ⊢
      rw [step_of_fetchDecode hs hi, step_of_fetchDecode (s := s.setRam m) hs hi, exec_setRam h]

/-- Settles O32: the instructions that read an entry agree on both stores, and `WRM` alone writes one. -/
theorem stepSeesOnlyItsDataRead : Obligations.StepSeesOnlyItsDataRead := by
  unfold Obligations.StepSeesOnlyItsDataRead
  intro s m h
  rw [step_setRam h]
  cases step s <;> rfl

end Sys2Proof.Machine
end

section
/-! PROOFS. The 4-bit subtract, the register pairs and the rotates as arithmetic on numbers (R11, R91, R105, R106), and the
other carry computations as tables over a nibble. -/

namespace Sys2Proof.Machine

/-! ### The 4-bit subtract -/

theorem sub4_result_toNat (a b : Nibble) (c : Bit) :
    ((sub4 a b c).1.toNat : Int) = ((a.toNat : Int) - b.toNat - (1 - c.toNat)) % 16 := by
  rw [sub4, add4_result_toNat, BitVec.toNat_ofNat]
  have hb := b.isLt
  omega

theorem sub4_carry_eq_one_iff (a b : Nibble) (c : Bit) :
    (sub4 a b c).2 = 1#1 ↔ (0 : Int) ≤ (a.toNat : Int) - b.toNat - (1 - c.toNat) := by
  rw [sub4, add4_carry_eq_one_iff, BitVec.toNat_ofNat]
  have hb := b.isLt
  omega

/-- Settles O34: the rules of the add (R90) on the complement of `b`. -/
theorem subWithBorrowExact : Obligations.SubWithBorrowExact := by
  unfold Obligations.SubWithBorrowExact
  intro a b c
  exact ⟨sub4_result_toNat a b c, sub4_carry_eq_one_iff a b c⟩

theorem sub4_result (a b : Nibble) (c : Bit) :
    (sub4 a b c).1 = BitVec.ofInt 4 ((a.toNat : Int) - b.toNat - (1 - c.toNat)) := by
  apply BitVec.eq_of_toNat_eq
  rw [BitVec.toNat_ofInt]
  have h := sub4_result_toNat a b c
  omega

theorem sub4_carry (a b : Nibble) (c : Bit) :
    (sub4 a b c).2 = if (0 : Int) ≤ (a.toNat : Int) - b.toNat - (1 - c.toNat) then 1#1 else 0#1 := by
  have h := sub4_carry_eq_one_iff a b c
  split
  case isTrue hnonneg => exact h.mpr hnonneg
  case isFalse hborrow => exact (BitVec.eq_zero_or_eq_one _).resolve_right (mt h.mp hborrow)

/-! ### Register pairs -/

theorem pairOk_of_even {p : Nat} (hlt : p < 16) (heven : p % 2 = 0) : pairOk p = true := by
  simp [hlt, heven]

/-- An odd pair index makes the term ill formed (R130). -/
theorem illFormed_of_odd {p : Nat} (hodd : p % 2 = 1) (d : Byte) :
    ∀ i ∈ [Instr.fim p d, .fin p, .jin p, .src p], i.wellFormed = false := by
  simpa [Instr.wellFormed] using fun _ => hodd

theorem decoded_pair_even {bs rest : List Byte} {p : Nat} {d : Byte}
    (h : decodeBytes bs = .ok (.fim p d, rest) ∨ decodeBytes bs = .ok (.fin p, rest) ∨
      decodeBytes bs = .ok (.jin p, rest) ∨ decodeBytes bs = .ok (.src p, rest)) : p < 16 ∧ p % 2 = 0 := by
  have hp : pairOk p = true := by
    obtain h | h | h | h := h <;> exact wellFormed_of_decodeBytes h
  simpa using hp

theorem setPair_reg_even_toNat (s : State) {p : Nat} (b : Byte) (h : p < 16) :
    ((s.setPair p b).reg p).toNat = b.toNat / 16 := by
  rw [State.reg_setPair_even s b h, hiNibble_toNat]

theorem setPair_reg_odd_toNat (s : State) {p : Nat} (b : Byte) (h : p + 1 < 16) :
    ((s.setPair p b).reg (p + 1)).toNat = b.toNat % 16 := by
  rw [State.reg_setPair_odd s b h, loNibble_toNat]

/-- Settles O35: nibbles of a byte, soundness of the decoder, and the operand check. -/
theorem pairHoldsHighNibbleInEvenRegister : Obligations.PairHoldsHighNibbleInEvenRegister := by
  unfold Obligations.PairHoldsHighNibbleInEvenRegister
  refine ⟨?_, fun _ _ _ _ => decoded_pair_even, ?_⟩
  · intro s p b hlt heven
    have hodd : p + 1 < 16 := by omega
    exact ⟨s.pair_toNat p, setPair_reg_even_toNat s b hlt, setPair_reg_odd_toNat s b hodd, s.pair_setPair_same b hodd⟩
  · intro s p d hodd i hi
    exact exec_illFormed (illFormed_of_odd hodd d i hi) s

/-! ### The other computations of a nibble and the carry -/

theorem inc4_toNat (v : Nibble) : (inc4 v).toNat = (v.toNat + 1) % 16 := BitVec.toNat_ofNat _ 4

theorem inc4_eq_zero_iff (v : Nibble) : inc4 v = 0#4 ↔ v.toNat = 15 := by
  revert v
  decide

theorem iac4_carry (a : Nibble) : (iac4 a).2 = if a = 15#4 then 1#1 else 0#1 := by
  revert a
  decide

theorem dac4_result_toNat (a : Nibble) : ((dac4 a).1.toNat : Int) = ((a.toNat : Int) - 1) % 16 := by
  rw [dac4, BitVec.toNat_ofNat]
  omega

theorem complCy_eq (c : Bit) : complCy c = if c = 1#1 then 0#1 else 1#1 := by
  revert c
  decide

theorem compl4_eq_xor (a : Nibble) : compl4 a = a ^^^ 0xF#4 := by
  revert a
  decide

theorem setWidth_bit (c : Bit) : c.setWidth 4 = if c = 1#1 then 1#4 else 0#4 := by
  revert c
  decide

theorem ral4_toNat (a : Nibble) (c : Bit) : (ral4 a c).2.toNat * 16 + (ral4 a c).1.toNat =
    (2 * (c.toNat * 16 + a.toNat)) % 32 + c.toNat := by
  revert a c
  decide

theorem rar4_toNat (a : Nibble) (c : Bit) : (rar4 a c).2.toNat * 16 + (rar4 a c).1.toNat =
    (c.toNat * 16 + a.toNat) / 2 + 16 * (a.toNat % 2) := by
  revert a c
  decide

end Sys2Proof.Machine
end

section
/-! PROOFS. One instruction each: the completed state that `exec_completes` gives, its fields read off by definition and its
numbers by the lemmas about the fields of the spec. -/

namespace Sys2Proof.Machine

/-! ### Load and move -/

/-- Settles O36: both operands are well formed, so both instructions complete. -/
theorem loadsSetTheAccumulator : Obligations.LoadsSetTheAccumulator := by
  unfold Obligations.LoadsSetTheAccumulator
  exact ⟨fun _ _ => exec_completes rfl rfl, fun _ _ hr => exec_completes (decide_eq_true hr) rfl⟩

/-- Settles O37: the register written is not read again. -/
theorem xchSwapsAccAndRegister : Obligations.XchSwapsAccAndRegister := by
  unfold Obligations.XchSwapsAccAndRegister
  intro r s hr
  exact ⟨completed (.xch r) s, exec_completes (decide_eq_true hr) rfl, rfl, State.reg_setReg_same _ _ hr,
    fun _ hk => State.reg_setReg_ne _ _ hk, rfl⟩

/-- Settles O38: the two nibbles of the written pair. -/
theorem fimLoadsThePair : Obligations.FimLoadsThePair := by
  unfold Obligations.FimLoadsThePair
  intro p b s hlt heven
  exact ⟨completed (.fim p b) s, exec_completes (pairOk_of_even hlt heven) rfl, setPair_reg_even_toNat s b hlt,
    setPair_reg_odd_toNat s b (by omega), fun _ => State.reg_setPair_ne s b, rfl⟩

/-- Settles O39: the address is read off the old state, so pair 0 may be the destination. -/
theorem finLoadsThePairFromPageZero : Obligations.FinLoadsThePairFromPageZero := by
  unfold Obligations.FinLoadsThePairFromPageZero
  intro p s hlt heven
  rw [← finAddr_eq_ofNat]
  exact ⟨completed (.fin p) s, exec_completes (pairOk_of_even hlt heven) rfl, setPair_reg_even_toNat s _ hlt,
    setPair_reg_odd_toNat s _ (by omega), fun _ => State.reg_setPair_ne s _, rfl⟩

theorem eq_with_pc_cycles {t : State} {pc : Addr} {n : Nat} (hpc : t.pc = pc) (hn : t.cycles = n) :
    t = { t with pc := pc, cycles := n } := by
  subst hpc hn
  rfl

/-- Settles O40: the three completed states one after the other, with `XCH` putting the immediate into the register. -/
theorem loadExchangeLoadRestores : Obligations.LoadExchangeLoadRestores := by
  unfold Obligations.LoadExchangeLoadRestores
  intro v r s hr
  have hwf : regOk r = true := decide_eq_true hr
  have hxch (u : State) : exec (.xch r) u = .next (completed (.xch r) u) := exec_completes hwf rfl
  have hld (u : State) : exec (.ld r) u = .next (completed (.ld r) u) := exec_completes hwf rfl
  have hreg : (completed (.xch r) (completed (.ldm v) s)).reg r = v := State.reg_setReg_same _ _ hr
  refine ⟨completed (.ld r) (completed (.xch r) (completed (.ldm v) s)), ?_, hreg, hreg,
    fun _ hk => State.reg_setReg_ne _ _ hk, eq_with_pc_cycles ?_ ?_⟩
  · rw [execAll_cons_next (exec_completes rfl rfl), execAll_cons_next (hxch _), execAll_cons_next (hld _), execAll_nil]
  · exact (BitVec.add_assoc _ _ _).trans (BitVec.add_assoc _ _ _)
  · rfl

/-! ### Arithmetic -/

/-- Settles O41: the model's add is the sum as it stands. -/
theorem addsAccumulateWithCarry : Obligations.AddsAccumulateWithCarry := by
  unfold Obligations.AddsAccumulateWithCarry
  exact ⟨fun _ _ hr => exec_completes (decide_eq_true hr) rfl, fun _ => exec_completes rfl rfl⟩

/-- Settles O42: the model's add of a complement is the difference (R91). -/
theorem subsSubtractWithBorrow : Obligations.SubsSubtractWithBorrow := by
  unfold Obligations.SubsSubtractWithBorrow
  constructor
  · intro r s hr
    rw [← sub4_result, ← sub4_carry]
    exact exec_completes (decide_eq_true hr) rfl
  · intro s
    rw [← sub4_result, ← sub4_carry]
    exact exec_completes rfl rfl

/-- Settles O43: the written register reads back its successor. -/
theorem incWrapsTheRegister : Obligations.IncWrapsTheRegister := by
  unfold Obligations.IncWrapsTheRegister
  intro r s hr
  have hreg : (completed (.inc r) s).reg r = inc4 (s.reg r) := State.reg_setReg_same s _ hr
  exact ⟨completed (.inc r) s, exec_completes (decide_eq_true hr) rfl, hreg ▸ inc4_toNat _,
    fun _ hk => State.reg_setReg_ne s _ hk, rfl⟩

/-- Settles O44: the result and the carry of each as facts about a nibble. -/
theorem iacAndDacCountTheAccumulator : Obligations.IacAndDacCountTheAccumulator := by
  unfold Obligations.IacAndDacCountTheAccumulator
  intro s
  exact ⟨⟨completed .iac s, exec_completes rfl rfl, BitVec.toNat_ofNat _ 4, iac4_carry s.acc, rfl⟩,
    ⟨completed .dac s, exec_completes rfl rfl, dac4_result_toNat s.acc, rfl, rfl⟩⟩

/-! ### Logic, carry and rotate -/

/-- Settles O45: the complement of the carry is the other bit. -/
theorem carryInstructionsWriteOnlyCarry : Obligations.CarryInstructionsWriteOnlyCarry := by
  unfold Obligations.CarryInstructionsWriteOnlyCarry
  intro s
  rw [← complCy_eq]
  exact ⟨exec_completes rfl rfl, exec_completes rfl rfl, exec_completes rfl rfl⟩

/-- Settles O46: `CY` as a nibble, and the complement as an exclusive or. -/
theorem clearTransmitAndComplement : Obligations.ClearTransmitAndComplement := by
  unfold Obligations.ClearTransmitAndComplement
  intro s
  rw [← setWidth_bit, ← compl4_eq_xor]
  exact ⟨exec_completes rfl rfl, exec_completes rfl rfl, exec_completes rfl rfl⟩

/-- Settles O47: the 5-bit value of each rotate. -/
theorem rotatesMoveFiveBits : Obligations.RotatesMoveFiveBits := by
  unfold Obligations.RotatesMoveFiveBits
  intro s
  exact ⟨⟨completed .ral s, exec_completes rfl rfl, ral4_toNat s.acc s.cy, rfl⟩,
    ⟨completed .rar s, exec_completes rfl rfl, rar4_toNat s.acc s.cy, rfl⟩⟩

/-- The state `s` after `n` rotates that brought `A` and `CY` to `r`. -/
def rotated (s : State) (r : Nibble × Bit) (n : Nat) : State :=
  { s with acc := r.1, cy := r.2, pc := s.pc + BitVec.ofNat 12 n, cycles := s.cycles + 8 * n }

theorem rotated_zero (s : State) : rotated s (s.acc, s.cy) 0 = s := by
  simp [rotated]

/-- One more one-byte instruction that writes `A` and `CY` alone. -/
theorem retire_rotated (s : State) (r q : Nibble × Bit) (n : Nat) :
    ((rotated s r n).setAccCy q).retire none 1 = rotated s q (n + 1) := by
  refine eq_with_pc_cycles ?_ rfl
  simp only [rotated, retire_none, State.setAccCy_pc, BitVec.ofNat_add, BitVec.add_assoc]

theorem exec_ral_rotated (s : State) (r : Nibble × Bit) (n : Nat) :
    exec .ral (rotated s r n) = .next (rotated s (ral4 r.1 r.2) (n + 1)) :=
  congrArg Host.Outcome.next (retire_rotated s r _ n)

theorem exec_rar_rotated (s : State) (r : Nibble × Bit) (n : Nat) :
    exec .rar (rotated s r n) = .next (rotated s (rar4 r.1 r.2) (n + 1)) :=
  congrArg Host.Outcome.next (retire_rotated s r _ n)

end Sys2Proof.Machine
end

section
/-! PROOFS. Runs of rotates, control transfer and data memory: one instruction, then sequences and runs of them. -/

namespace Sys2Proof.Machine

/-! ### Five rotates -/

theorem ral4_five_times (r : Nibble × Bit) : (fun q => ral4 q.1 q.2)^[5] r = r := by
  revert r
  decide

theorem rar4_five_times (r : Nibble × Bit) : (fun q => rar4 q.1 q.2)^[5] r = r := by
  revert r
  decide

theorem rar4_ral4 (a : Nibble) (c : Bit) : rar4 (ral4 a c).1 (ral4 a c).2 = (a, c) := by
  revert a c
  decide

theorem ral4_rar4 (a : Nibble) (c : Bit) : ral4 (rar4 a c).1 (rar4 a c).2 = (a, c) := by
  revert a c
  decide

/-- Settles O48: the rotates run on the pair of `A` and `CY`, which comes back. -/
theorem fiveRotatesAreTheIdentity : Obligations.FiveRotatesAreTheIdentity := by
  unfold Obligations.FiveRotatesAreTheIdentity
  intro s
  have hral : execAll [.ral, .ral, .ral, .ral, .ral] (rotated s (s.acc, s.cy) 0) =
      .next (rotated s ((fun q => ral4 q.1 q.2)^[5] (s.acc, s.cy)) 5) := by
    simp only [execAll, exec_ral_rotated, Function.iterate_succ_apply, Function.iterate_zero_apply,
      Nat.zero_add, Nat.reduceAdd]
  have hrar : execAll [.rar, .rar, .rar, .rar, .rar] (rotated s (s.acc, s.cy) 0) =
      .next (rotated s ((fun q => rar4 q.1 q.2)^[5] (s.acc, s.cy)) 5) := by
    simp only [execAll, exec_rar_rotated, Function.iterate_succ_apply, Function.iterate_zero_apply,
      Nat.zero_add, Nat.reduceAdd]
  have hleft : execAll [.ral, .rar] (rotated s (s.acc, s.cy) 0) = .next (rotated s (s.acc, s.cy) 2) := by
    simp only [execAll, exec_ral_rotated, exec_rar_rotated, rar4_ral4, Nat.zero_add, Nat.reduceAdd]
  have hright : execAll [.rar, .ral] (rotated s (s.acc, s.cy) 0) = .next (rotated s (s.acc, s.cy) 2) := by
    simp only [execAll, exec_ral_rotated, exec_rar_rotated, ral4_rar4, Nat.zero_add, Nat.reduceAdd]
  rw [rotated_zero] at hral hrar hleft hright
  rw [ral4_five_times] at hral
  rw [rar4_five_times] at hrar
  exact ⟨hral, hrar, hleft, hright⟩

/-! ### Control transfer -/

theorem pageTarget_eq_ofNat (pc : Addr) (b : Byte) :
    pageTarget pc b = BitVec.ofNat 12 (pc.toNat / 256 * 256 + b.toNat) := by
  rw [← pageTarget_toNat, BitVec.ofNat_toNat, BitVec.setWidth_eq]

/-- Settles O49: the target is the address, or the in-page address as a number. -/
theorem unconditionalJumpsAssignPc : Obligations.UnconditionalJumpsAssignPc := by
  unfold Obligations.UnconditionalJumpsAssignPc
  constructor
  · intro a s ha
    exact exec_completes (decide_eq_true ha) rfl
  · intro p s hlt heven
    rw [← State.pair_toNat, ← pageTarget_eq_ofNat]
    exact exec_completes (pairOk_of_even hlt heven) rfl

theorem returnAddr_eq_ofNat (s : State) : returnAddr s = BitVec.ofNat 12 ((s.pc.toNat + 2) % 4096) := by
  apply BitVec.eq_of_toNat_eq
  rw [returnAddr, BitVec.toNat_add, BitVec.toNat_ofNat, BitVec.toNat_ofNat]
  omega

theorem exec_jms_room {a : Nat} {s : State} (ha : a < 4096) (h : s.stk.length < 3) :
    exec (.jms a) s = .next (completed (.jms a) s) := exec_completes (decide_eq_true ha) (if_pos h)

/-- Settles O50: room on the stack, and the return address as a number. -/
theorem jmsPushesTheReturnAddress : Obligations.JmsPushesTheReturnAddress := by
  unfold Obligations.JmsPushesTheReturnAddress
  intro a s ha h
  rw [← returnAddr_eq_ofNat]
  exact exec_jms_room ha h

theorem exec_bbl_entry (d : Nibble) {s : State} {k : List Addr} {v : Addr} (h : s.stk = k ++ [v]) :
    exec (.bbl d) s = .next { s with stk := k, pc := v, acc := d, cycles := s.cycles + 8 } := by
  have hentry : s.stk ≠ [] := by simp [h]
  have hdone : exec (.bbl d) s = .next (completed (.bbl d) s) := exec_completes rfl (if_neg hentry)
  rw [hdone, completed_bbl d h]
  rfl

/-- Settles O51: an entry on the stack. -/
theorem bblReturnsWithAValue : Obligations.BblReturnsWithAValue := by
  unfold Obligations.BblReturnsWithAValue
  intro d s k v h
  exact exec_bbl_entry d h

/-- Settles O52: the stack check alone refuses. -/
theorem stackFaultsWriteOnlyStatus : Obligations.StackFaultsWriteOnlyStatus := by
  unfold Obligations.StackFaultsWriteOnlyStatus
  constructor
  · intro a s ha hfull
    exact exec_stackFault (decide_eq_true ha) (if_neg (Nat.not_lt.mpr hfull))
  · intro d s hnil
    exact exec_stackFault rfl (if_pos hnil)

/-- Where a two-byte conditional jump leads (R62, R70). -/
theorem jumpIf_getD {p q : Prop} [Decidable p] [Decidable q] (h : p ↔ q) (pc : Addr) (b : Byte) :
    (jumpIf (decide p) pc b).getD (pc + 2#12) =
      BitVec.ofNat 12 (if q then pc.toNat / 256 * 256 + b.toNat else pc.toNat + 2) := by
  by_cases hp : p
  · rw [decide_eq_true hp, if_pos (h.mp hp), ← pageTarget_eq_ofNat]
    rfl
  · rw [decide_eq_false hp, if_neg (mt h.mpr hp), BitVec.ofNat_add, BitVec.ofNat_toNat, BitVec.setWidth_eq]
    rfl

/-- Settles O54: the written register decides the jump. -/
theorem iszIncrementsAndJumpsOnZero : Obligations.IszIncrementsAndJumpsOnZero := by
  unfold Obligations.IszIncrementsAndJumpsOnZero
  intro r b s hr
  have hreg : (completed (.isz r b) s).reg r = inc4 (s.reg r) := State.reg_setReg_same s _ hr
  have hpc : (completed (.isz r b) s).pc =
      BitVec.ofNat 12 (if (s.reg r).toNat = 15 then s.pc.toNat / 256 * 256 + b.toNat else s.pc.toNat + 2) :=
    jumpIf_getD (inc4_eq_zero_iff _) s.pc b
  refine ⟨completed (.isz r b) s, exec_completes (decide_eq_true hr) rfl, hreg ▸ inc4_toNat _,
    fun _ hk => State.reg_setReg_ne s _ hk, ?_, rfl⟩
  rw [hpc, BitVec.toNat_ofNat]
  have hpage := s.pc.isLt
  have hoff := b.isLt
  split <;> omega

/-- A `JCN` whose condition holds exactly when `q` does. -/
theorem exec_jcn {i : Instr} {s : State} {b : Byte} {p q : Prop} [Decidable p] [Decidable q]
    (hexec : exec i s = .next (s.branch (decide p) b)) (h : p ↔ q) : exec i s = .next
      { s with pc := BitVec.ofNat 12 (if q then s.pc.toNat / 256 * 256 + b.toNat else s.pc.toNat + 2)
               cycles := s.cycles + 16 } := by
  rw [hexec, ← jumpIf_getD h]
  rfl

/-- Settles O55: each condition as a number, through the one lemma on conditional jumps. -/
theorem jcnTestsItsCondition : Obligations.JcnTestsItsCondition := by
  unfold Obligations.JcnTestsItsCondition
  intro b s
  have han := exec_jcn (i := .jcnAN b) (s := s) rfl (not_congr BitVec.toNat_inj.symm)
  rw [ite_not] at han
  exact ⟨exec_jcn rfl BitVec.toNat_inj.symm, exec_jcn rfl BitVec.toNat_inj.symm, exec_jcn rfl BitVec.toNat_inj.symm, han⟩

/-! ### Runs of steps -/

theorem run_zero (s : State) : Host.Core.run Sys2Proof.core 0 s = .next s := rfl

theorem run_succ_of_step {s t : State} (h : step s = .next t) (n : Nat) :
    Host.Core.run Sys2Proof.core (n + 1) s = Host.Core.run Sys2Proof.core n t := by
  have hcore : Sys2Proof.core.step s = .next t := h
  simp only [Host.Core.run, hcore]

/-- Settles O53: the `JMS` pushes the address that the `BBL` pops. -/
theorem callThenReturnRestoresPc : Obligations.CallThenReturnRestoresPc := by
  unfold Obligations.CallThenReturnRestoresPc
  intro s a v hrun hroom hjms hbbl
  have ha : a < 4096 := of_decide_eq_true (wellFormed_of_fetchDecode hjms)
  have hcall : step s = .next (completed (.jms a) s) := (step_of_fetchDecode hrun hjms).trans (exec_jms_room ha hroom)
  have hfetch : (completed (.jms a) s).fetchDecode = some (.bbl v) := fetchDecode_of_oneByte hbbl
  have hreturn := (step_of_fetchDecode (s := completed (.jms a) s) hrun hfetch).trans (exec_bbl_entry v rfl)
  rw [run_succ_of_step hcall, run_succ_of_step hreturn, run_zero]
  rfl

/-- Settles O56, by induction on the steps: each leaves the jump at `pc`. -/
theorem selfJumpIdlesForever : Obligations.SelfJumpIdlesForever := by
  unfold Obligations.SelfJumpIdlesForever
  intro s n hrun hjun
  have hpc : BitVec.ofNat 12 s.pc.toNat = s.pc := by rw [BitVec.ofNat_toNat, BitVec.setWidth_eq]
  have hstep : ∀ c, step { s with cycles := c } = .next { s with cycles := c + 16 } := by
    intro c
    rw [step_of_fetchDecode (s := { s with cycles := c }) hrun hjun, unconditionalJumpsAssignPc.1 _ _ s.pc.isLt, hpc]
  have hidle : ∀ c, Host.Core.run Sys2Proof.core n { s with cycles := c } = .next { s with cycles := c + 16 * n } := by
    induction n with
    | zero => exact fun _ => run_zero _
    | succ n ih =>
      intro c
      rw [run_succ_of_step (hstep c), ih, Nat.mul_succ, Nat.add_assoc, Nat.add_comm 16]
  exact hidle s.cycles

/-! ### Data memory -/

/-- Settles O57: the pair as a number. -/
theorem srcAddressesAndRdmReads : Obligations.SrcAddressesAndRdmReads := by
  unfold Obligations.SrcAddressesAndRdmReads
  constructor
  · intro p s hlt heven
    rw [← State.pair_toNat, BitVec.ofNat_toNat, BitVec.setWidth_eq]
    exact exec_completes (pairOk_of_even hlt heven) rfl
  · intro s
    exact exec_completes rfl rfl

/-- Settles O58: the laws of a canonical memory at and beside the written address. -/
theorem wrmStoresAtDp : Obligations.WrmStoresAtDp := by
  unfold Obligations.WrmStoresAtDp
  intro s hinv
  exact ⟨completed .wrm s, exec_wrm s, State.memRead_memWrite_same hinv.2.1 _ _,
    fun _ ha => State.memRead_memWrite_ne hinv.2.1 _ ha, rfl⟩

/-- Instructions other than `WRM` and `SRC` keep `DP` and the data store, however many there are. -/
theorem execAll_keeps_dp_ram {is : List Instr} (his : ∀ i ∈ is, i ≠ .wrm ∧ ∀ p, i ≠ .src p) (s : State) :
    ∃ u, execAll is s = .next u ∧ u.dp = s.dp ∧ u.ram = s.ram := by
  induction is generalizing s with
  | nil => exact ⟨s, rfl, rfl, rfl⟩
  | cons i is ih =>
    obtain ⟨hwrm, hsrc⟩ := his i List.mem_cons_self
    have hdp : writesDp i = false := by
      cases i with
      | src p => exact absurd rfl (hsrc p)
      | _ => rfl
    obtain ⟨t, ht⟩ := exec_next i s
    obtain ⟨u, hu, hudp, huram⟩ := ih (fun j hj => his j (List.mem_cons_of_mem i hj)) t
    exact ⟨u, (execAll_cons_next ht is).trans hu, hudp.trans (exec_keeps_dp hdp s t ht),
      huram.trans (exec_keeps_ram hwrm s t ht)⟩

/-- Settles O59: what stands between keeps the stored entry and its address. -/
theorem storeThenLoadReturnsTheValue : Obligations.StoreThenLoadReturnsTheValue := by
  unfold Obligations.StoreThenLoadReturnsTheValue
  intro s between hinv hbetween
  obtain ⟨t, hwrm, hstored, -, ht⟩ := wrmStoresAtDp s hinv
  have htdp : t.dp = s.dp := by rw [ht]
  obtain ⟨u, hu, hudp, huram⟩ := execAll_keeps_dp_ram hbetween t
  have hdp : u.dp = s.dp := hudp.trans htdp
  have hread : u.memRead s.dp = s.acc := (congrArg (Memory.read · s.dp.toNat) huram).trans hstored
  have hrun : execAll (.wrm :: between) s = .next u := (execAll_cons_next hwrm between).trans hu
  refine ⟨u, hrun, hdp, hread, ?_⟩
  rw [execAll_append_next hrun, execAll_cons_next (srcAddressesAndRdmReads.2 u), execAll_nil, hdp, hread]

end Sys2Proof.Machine
end
